-- ==== Sys2Proof/Word.lean ====
section
/-! DEFINITION. The widths of the machine's values (spec 00_scope.md R5, R6; 30_encoding.md R42). -/

namespace Sys2Proof

/-- A byte: a general register, a timer, a memory cell, the immediate NN (R5, R42). Unsigned (R6). -/
abbrev Byte := BitVec 8

/-- A 16-bit value: I, PC, a call-stack entry, an instruction word (R5, R41). -/
abbrev Word := BitVec 16

/-- The 12-bit immediate address NNN (R42). -/
abbrev Imm12 := BitVec 12

/-- The name of a general register V0..VF, as the X and Y fields give it (R12, R42). -/
abbrev Reg := Fin 16

/-- The flag register VF is V[15] (R13). -/
abbrev vf : Reg := 15

end Sys2Proof
end

