-- ==== Sys2Proof/Config.lean ====
section
/-! DEFINITION. The implementation parameters of spec 00_scope.md R5 and the one free value. The FONT parameter
stands in Sys2Proof/Machine/Font.lean. -/

namespace Sys2Proof

/-- Memory size in bytes; addresses 0x000..0xFFF (R5, R29, conflict C1). -/
@[simp] abbrev Config.memSize : Nat := 4096

/-- First address of the font region (R5, R32). -/
@[simp] abbrev Config.fontBase : Nat := 0x050

/-- Bytes in the font region 0x050..0x09F: 16 glyphs of 5 bytes (R5). -/
@[simp] abbrev Config.fontSize : Nat := 80

/-- Bytes in one glyph (R5, R80). -/
@[simp] abbrev Config.glyphSize : Nat := 5

/-- The entry offset: PC at reset and the address of the program's first byte (R5, R15, R111). -/
@[simp] abbrev Config.entry : Nat := 0x200

/-- The longest program the block loads: 4096 − 512 bytes (R5, R112). -/
@[simp] abbrev Config.maxProg : Nat := 3584

/-- Depth of the call stack (R5, R16). -/
@[simp] abbrev Config.stackDepth : Nat := 16

/-- RAND, the random byte of CXNN (R77, R103; decision D16, open point U4): the `n`-th byte drawn is `Config.rand n`.
It has no body, so a statement about it holds for every value. DESIGN CHOICE (log 2): the free value is indexed by the
number of draws made so far, which State counts; unsafe only for a claim that compares two runs (log 2). -/
opaque Config.rand : Nat → Byte

end Sys2Proof
end

