-- ==== Sys2Proof/Machine/Font.lean ====
section
/-! DEFINITION. The FONT parameter (spec 00_scope.md R5; 92_eei_decisions.md D19; 93_implementation_defined.md U5, G8). -/

namespace Sys2Proof.Machine

/-- FONT, five bytes a glyph, glyphs 0..F in order. PRESUMED (log 1): the source does not give the bytes; these are the
default the spec recommends from general knowledge (D19). Unsafe for a claim that rests on one of these bytes; no statement does,
they name `fontByte` and hold for every table. -/
def fontTable : List Byte :=
  [0xF0, 0x90, 0x90, 0x90, 0xF0] ++ [0x20, 0x60, 0x20, 0x20, 0x70] ++
  [0xF0, 0x10, 0xF0, 0x80, 0xF0] ++ [0xF0, 0x10, 0xF0, 0x10, 0xF0] ++
  [0x90, 0x90, 0xF0, 0x10, 0x10] ++ [0xF0, 0x80, 0xF0, 0x10, 0xF0] ++
  [0xF0, 0x80, 0xF0, 0x90, 0xF0] ++ [0xF0, 0x10, 0x20, 0x40, 0x40] ++
  [0xF0, 0x90, 0xF0, 0x90, 0xF0] ++ [0xF0, 0x90, 0xF0, 0x10, 0xF0] ++
  [0xF0, 0x90, 0xF0, 0x90, 0x90] ++ [0xE0, 0x90, 0xE0, 0x90, 0xE0] ++
  [0xF0, 0x80, 0x80, 0x80, 0xF0] ++ [0xE0, 0x90, 0x90, 0x90, 0xE0] ++
  [0xF0, 0x80, 0xF0, 0x80, 0xF0] ++ [0xF0, 0x80, 0xF0, 0x80, 0x80]

/-- `FONT[j]`, for j in 0..79 (R5, R111). -/
def fontByte (j : Nat) : Byte := fontTable.getD j 0

end Sys2Proof.Machine
end

