-- ==== Sys2Proof/Machine/State.lean ====
section
/-! DEFINITION. The state of the machine (spec 10_state.md R11 to R28), as plain data, and its reset value (70_reset_and_hazards.md R111). -/

namespace Sys2Proof.Machine

/-- The values of FAULT (R23, R91). -/
inductive FaultCause where
  /-- 0, no fault -/
  | none
  /-- 1, 2NNN with 16 return addresses on the stack -/
  | stackOverflow
  /-- 2, 00EE with an empty stack -/
  | stackUnderflow
  /-- 3, EX9E or EXA1 with a register above 15 -/
  | keyRange
  deriving DecidableEq, Repr

/-- The display D, 32 rows of 64 one-bit pixels; `d[y][x]` is the pixel of row `y`, column `x` (R21; decision D26). -/
abbrev Display := Vector (Vector Bool 64) 32

/-- The contents of M as (address, byte) pairs with strictly rising addresses below 4096, less the bytes that hold their
reset value (R22, R29; log 11). -/
abbrev Memory := List Host.Cell

/-- Everything the spec gives the machine (R28), and the model's own count of random bytes drawn. -/
structure State where
  /-- V0..VF (R12); VF is `v[15]` (R13) -/
  v : Vector Byte 16
  /-- the index register I (R14) -/
  i : Word
  /-- the program counter PC (R15) -/
  pc : Word
  /-- SP, the number of call-stack entries in use, 0..16 (R16, R17; log 9) -/
  sp : Fin 17
  /-- the call stack S[0..15] (R16) -/
  stack : Vector Word 16
  /-- the delay timer DT (R18) -/
  dt : Byte
  /-- the sound timer ST (R19) -/
  st : Byte
  /-- the key matrix K[0..15], true for pressed (R20) -/
  keys : Vector Bool 16
  /-- the display D (R21) -/
  display : Display
  /-- the memory M (R22) -/
  mem : Memory
  /-- FAULT (R23) -/
  faultReg : FaultCause
  /-- MODEL'S OWN (log 2, log 3): how many random bytes CXNN has drawn; the next is `Config.rand draws` (R103) -/
  draws : Nat
  deriving DecidableEq, Repr

/-- Reasons for a step to stop the machine with a fault: THERE ARE NONE. The spec's faults are values of the register
FAULT in a next state (R45, R91 to R93; log 4), out-of-range addresses wrap (R30) and every word executes (R50). -/
inductive Fault
  deriving DecidableEq, Repr

/-- Reasons for the model to have no meaning for an instruction. -/
inductive Refusal where
  /-- Raised only by an arm of exec whose instruction has no meaning yet; no arm raises it. Safe. -/
  | notModelled (mnemonic : String)
  deriving DecidableEq, Repr

/-- The three outcomes of a step over this machine's types. -/
abbrev Outcome := Host.Outcome State Fault Refusal

/-- The machine right after reset (R111). Memory lists nothing: an unlisted byte reads as its reset contents, the font
in 0x050..0x09F and 0 elsewhere (`memInitial`). `draws := 0` is a DESIGN CHOICE (log 3): the spec has no such element;
unsafe only for a claim that rests on the index of a random byte, and none does. -/
def State.reset : State where
  v := Vector.replicate 16 0
  i := 0
  pc := BitVec.ofNat 16 Config.entry
  sp := 0
  stack := Vector.replicate 16 0
  dt := 0
  st := 0
  keys := Vector.replicate 16 false
  display := Vector.replicate 32 (Vector.replicate 64 false)
  mem := []
  faultReg := .none
  draws := 0

end Sys2Proof.Machine
end

