-- ==== Sys2Proof/Machine/Ops.lean ====
section
/-! DEFINITION. The named operations over memory, registers, stack, display and FAULT (spec 00_scope.md R8;
20_memory.md R30, R31; 60_exceptions.md R92). -/

namespace Sys2Proof.Machine

/-! ### Memory -/

/-- What a byte of memory that nothing has written holds: the reset contents, FONT in 0x050..0x09F and 0 elsewhere
(R22, R32, R111; log 11). -/
def memInitial (a : Nat) : Byte :=
  if Config.fontBase ≤ a ∧ a < Config.fontBase + Config.fontSize then fontByte (a - Config.fontBase) else 0

/-- The byte listed for address `a`, if one is. -/
def memLookup : Memory → Nat → Option Byte
  | [], _ => none
  | c :: cs, a => if c.1 = a then some c.2 else memLookup cs a

/-- `MemRead(a, 1) = M[a mod 4096]` for every address `a` (R30, R31). -/
def memRead (m : Memory) (a : Nat) : Byte :=
  (memLookup m (a % Config.memSize)).getD (memInitial (a % Config.memSize))

/-- The list without any entry for address `a`. -/
def memErase : Memory → Nat → Memory
  | [], _ => []
  | c :: cs, a => if c.1 = a then memErase cs a else c :: memErase cs a

/-- The list with `b` at address `a`, addresses still rising. -/
def memInsert : Memory → Nat → Byte → Memory
  | [], a, b => [(a, b)]
  | c :: cs, a, b =>
    if a < c.1 then (a, b) :: c :: cs
    else if c.1 = a then (a, b) :: cs
    else c :: memInsert cs a b

/-- `MemWrite(a, 1, b) : M[a mod 4096] <- b` (R30, R31), keeping the canonical form: a byte that holds its reset value
is not listed. -/
def memWrite (m : Memory) (a : Nat) (b : Byte) : Memory :=
  if b = memInitial (a % Config.memSize) then memErase m (a % Config.memSize)
  else memInsert m (a % Config.memSize) b

/-- The canonical form from address `low` on: addresses rise strictly, lie below 4096, and no entry holds its reset value. -/
def memWfFrom : Nat → Memory → Bool
  | _, [] => true
  | low, c :: cs =>
    decide (low ≤ c.1) && decide (c.1 < Config.memSize) && (c.2 != memInitial c.1) && memWfFrom (c.1 + 1) cs

/-- The canonical form of a memory: equal contents are equal lists (log 11). -/
def memWf (m : Memory) : Bool := memWfFrom 0 m

/-! ### General registers -/

/-- `V[x]` (R8, R12). -/
def readV (s : State) (x : Reg) : Byte := s.v[x]

/-- `V[x] <- b` (R8, R12). -/
def writeV (s : State) (x : Reg) (b : Byte) : State := { s with v := s.v.set x b }

/-- Write Vx, then the flag register VF, in this order, so that with x = F the flag stays (R49; decision D6). -/
def writeVFlag (s : State) (x : Reg) (b flag : Byte) : State := writeV (writeV s x b) vf flag

/-! ### I, PC, timers, memory, display -/

/-- `I <- w` (R14). -/
def setI (s : State) (w : Word) : State := { s with i := w }

/-- `PC <- w` (R15). -/
def setPc (s : State) (w : Word) : State := { s with pc := w }

/-- `PC <- trunc_16(PC + 2)`: the fetch's advance and the extra advance of a skip (R15, R45, R62). -/
def advancePc (s : State) : State := setPc s (s.pc + 2)

/-- `PC <- trunc_16(PC + 65536 - 2)`: back to the executing instruction's own address (R15, R87). -/
def rewindPc (s : State) : State := setPc s (s.pc - 2)

/-- Skip the next instruction when the condition holds; it is not fetched (R62, R116). -/
def skipIf (c : Bool) (s : State) : State := if c then advancePc s else s

/-- `DT <- b` (R18). -/
def setDt (s : State) (b : Byte) : State := { s with dt := b }

/-- `ST <- b` (R19). -/
def setSt (s : State) (b : Byte) : State := { s with st := b }

/-- Replace the contents of memory. -/
def setMem (s : State) (m : Memory) : State := { s with mem := m }

/-- Replace all general registers. -/
def setRegs (s : State) (v : Vector Byte 16) : State := { s with v := v }

/-- `SP <- n` (R16). -/
def setSp (s : State) (n : Fin 17) : State := { s with sp := n }

/-- Replace the entries of the call stack. -/
def setStack (s : State) (entries : Vector Word 16) : State := { s with stack := entries }

/-- Replace the display. -/
def setDisplay (s : State) (d : Display) : State := { s with display := d }

/-- Replace all 16 entries of the key matrix (R20, R101). -/
def replaceKeys (s : State) (k : Vector Bool 16) : State := { s with keys := k }

/-! ### FAULT: the machine's one exception mechanism (R90 to R95) -/

/-- The code the host sees in FAULT (R23, R91). -/
def FaultCause.code : FaultCause → Nat
  | .none => 0
  | .stackOverflow => 1
  | .stackUnderflow => 2
  | .keyRange => 3

/-- `FAULT <- c` (R23). -/
def setFault (s : State) (c : FaultCause) : State := { s with faultReg := c }

/-- `raise Fault(c)`: the step is undone and FAULT set (R45, R92). DEDUCED (log 4): every check comes before its
instruction writes anything, so undoing the step is undoing the fetch's advance of PC (R92's last sentence); safe. -/
def raiseFault (c : FaultCause) (s : State) : State := setFault (rewindPc s) c

/-- FAULT ≠ NONE: step has no effect (R93). -/
def halted (s : State) : Bool := s.faultReg != .none

/-! ### Call stack -/

/-- Push a return address: `S[SP] <- w; SP <- SP + 1`; nothing when SP = 16 (R16, R17, R60). -/
def pushReturn (s : State) (w : Word) : Option State :=
  if h : s.sp.val < 16 then
    some (setSp (setStack s (s.stack.set s.sp.val w)) ⟨s.sp.val + 1, by omega⟩)
  else none

/-- Pop a return address: `SP <- SP - 1`, and the entry `S[SP]`, which is not cleared; nothing when SP = 0 (R16, R17, R58). -/
def popReturn (s : State) : Option (Word × State) :=
  if h : s.sp.val = 0 then none
  else some (s.stack[s.sp.val - 1], setSp s ⟨s.sp.val - 1, by omega⟩)

/-! ### Keys -/

/-- The least k with K[k] = true, scanning from 0 upward (R87). -/
def firstKey (k : Vector Bool 16) : Option Reg := (List.finRange 16).find? (fun j => k[j])

/-! ### Random byte -/

/-- `draw RAND`: the next free byte, and the state in which it has been taken (R8, R103; log 2). -/
def drawRand (s : State) : Byte × State := (Config.rand s.draws, { s with draws := s.draws + 1 })

/-! ### Display -/

/-- `D[y][x]` (R8, R21). -/
def pixel (d : Display) (y : Fin 32) (x : Fin 64) : Bool := d[y][x]

/-- `D[y][x] <- not D[y][x]` (R56). -/
def togglePixel (d : Display) (y : Fin 32) (x : Fin 64) : Display := d.set y (d[y].set x (!d[y][x]))

/-- Every pixel false (R55). -/
def clearDisplay : Display := Vector.replicate 32 (Vector.replicate 64 false)

/-- The display while a sprite is drawn, and whether a toggle has turned a set pixel off. -/
structure Canvas where
  display : Display
  collided : Bool
  deriving DecidableEq, Repr

/-- One set sprite bit at (x, y): note a collision, then toggle (R56). -/
def plot (y : Fin 32) (x : Fin 64) (c : Canvas) : Canvas where
  display := togglePixel c.display y x
  collided := c.collided || pixel c.display y x

/-- The columns `cs` of one sprite row `b` whose bit 7 lies at column `x0`; past column 63 the rest of the row is not
drawn (R56: horizontal clip; bit 7 is the leftmost pixel, decision D18). -/
def drawRow (b : Byte) (y : Fin 32) (x0 : Fin 64) : List Nat → Canvas → Canvas
  | [], cv => cv
  | c :: cs, cv =>
    if h : x0.val + c < 64 then
      drawRow b y x0 cs (if b.getLsbD (7 - c) then plot y ⟨x0.val + c, h⟩ cv else cv)
    else cv

/-- The sprite rows `rs` read at `base + r`, each on display row `(y0 + r) mod 32` (R56: vertical wrap). -/
def drawRows (m : Memory) (base : Nat) (x0 : Fin 64) (y0 : Fin 32) : List Nat → Canvas → Canvas
  | [], cv => cv
  | r :: rs, cv =>
    drawRows m base x0 y0 rs (drawRow (memRead m (base + r)) (Fin.ofNat 32 (y0.val + r)) x0 (List.range 8) cv)

/-! ### Register blocks -/

/-- Store the registers `ks` at `a + k`, in order (R82). -/
def storeBlock (v : Vector Byte 16) (a : Nat) : List Reg → Memory → Memory
  | [], m => m
  | k :: ks, m => storeBlock v a ks (memWrite m (a + k.val) v[k])

/-- Load the registers `ks` from `a + k`, in order (R83). -/
def loadBlock (m : Memory) (a : Nat) : List Reg → Vector Byte 16 → Vector Byte 16
  | [], v => v
  | k :: ks, v => loadBlock m a ks (v.set k (memRead m (a + k.val)))

end Sys2Proof.Machine
end

