-- ==== Sys2Proof/Machine/Operands.lean ====
section
/-! DEFINITION. Operand forms (spec 30_encoding.md R43; 40_display.md R56; 43_index_memory.md). -/

namespace Sys2Proof.Machine

/-- `zext_16(NNN)`: the immediate address, never sign-extended, scaled or shifted (R43). -/
def targetOf (nnn : Imm12) : Word := nnn.zeroExtend 16

/-- The address of byte `k` from I, on unbounded naturals; the access reduces it modulo 4096 (R31). -/
def indexAddr (s : State) (k : Nat) : Nat := s.i.toNat + k

/-- The registers V0..Vx inclusive, V0 first (R82, R83). -/
def regsUpTo (x : Reg) : List Reg := (List.finRange 16).take (x.val + 1)

/-- The start column of a sprite, `V[X] mod 64` (R56). -/
def spriteColumn (b : Byte) : Fin 64 := Fin.ofNat 64 b.toNat

/-- The start row of a sprite, `V[Y] mod 32` (R56). -/
def spriteRow (b : Byte) : Fin 32 := Fin.ofNat 32 b.toNat

/-- The font character address `0x050 + 5 * d`, for the full 8-bit `d`, unmasked (R80; decision D17). -/
def glyphAddr (d : Byte) : Word := BitVec.ofNat 16 (Config.fontBase + Config.glyphSize * d.toNat)

/-- The hundreds digit, `v div 100` (R81). -/
def bcdHundreds (v : Byte) : Byte := BitVec.ofNat 8 (v.toNat / 100)

/-- The tens digit, `(v div 10) mod 10` (R81). -/
def bcdTens (v : Byte) : Byte := BitVec.ofNat 8 (v.toNat / 10 % 10)

/-- The ones digit, `v mod 10` (R81). -/
def bcdOnes (v : Byte) : Byte := BitVec.ofNat 8 (v.toNat % 10)

/-- The key a register names: an index 0..15, or none when the register exceeds 15 (R84, R85; decision D14). -/
def keyIndex (b : Byte) : Option Reg := if h : b.toNat < 16 then some ⟨b.toNat, h⟩ else none

end Sys2Proof.Machine
end

