-- ==== Sys2Proof/Machine/Flags.lean ====
section
/-! DEFINITION. What the flag-writing instructions put in VF (spec 10_state.md R13; 42_alu.md R72 to R76; 40_display.md R56). -/

namespace Sys2Proof.Machine

/-- A flag as the byte VF receives: 1 or 0. -/
def flagByte (c : Bool) : Byte := if c then 1 else 0

/-- 8XY4: 1 on unsigned overflow, `a + b > 255` (R72). -/
def carryFlag (a b : Byte) : Byte := flagByte (decide (a.toNat + b.toNat > 255))

/-- 8XY5, 8XY7: 1 when the minuend is strictly greater than the subtrahend, so 0 at equality (R73, R75; conflict C3). -/
def noBorrowFlag (minuend subtrahend : Byte) : Byte := flagByte (decide (minuend.toNat > subtrahend.toNat))

/-- 8XY6: bit 0, the bit a right shift drops (R74; decision D7). -/
def shrFlag (b : Byte) : Byte := flagByte (b.getLsbD 0)

/-- 8XYE: bit 7, the bit a left shift drops (R76; decision D7). -/
def shlFlag (b : Byte) : Byte := flagByte (b.getLsbD 7)

/-- DXYN: 1 when a toggle turned a set pixel off (R56). -/
def collisionFlag (c : Canvas) : Byte := flagByte c.collided

end Sys2Proof.Machine
end

