-- ==== Sys2Proof/Machine/Alu.lean ====
section
/-! DEFINITION. Register loads, arithmetic and logic (spec 42_alu.md R66 to R77): operands are read first, Vx is written
next, VF last where the instruction sets a flag (R49). -/

namespace Sys2Proof.Machine

/-- 6XNN LD Vx, NN (R66). -/
def execLdImm (x : Reg) (nn : Byte) (s : State) : Outcome := .next (writeV s x nn)

/-- 7XNN ADD Vx, NN: modulo 256, no flag (R67; conflict C6). -/
def execAddImm (x : Reg) (nn : Byte) (s : State) : Outcome := .next (writeV s x (readV s x + nn))

/-- 8XY0 LD Vx, Vy (R68). -/
def execLdReg (x y : Reg) (s : State) : Outcome := .next (writeV s x (readV s y))

/-- 8XY1 OR Vx, Vy: no flag (R69). -/
def execOrReg (x y : Reg) (s : State) : Outcome := .next (writeV s x (readV s x ||| readV s y))

/-- 8XY2 AND Vx, Vy: no flag (R70). -/
def execAndReg (x y : Reg) (s : State) : Outcome := .next (writeV s x (readV s x &&& readV s y))

/-- 8XY3 XOR Vx, Vy: no flag (R71). -/
def execXorReg (x y : Reg) (s : State) : Outcome := .next (writeV s x (readV s x ^^^ readV s y))

/-- 8XY4 ADD Vx, Vy: modulo 256, VF = carry (R72). -/
def execAddReg (x y : Reg) (s : State) : Outcome :=
  .next (writeVFlag s x (readV s x + readV s y) (carryFlag (readV s x) (readV s y)))

/-- 8XY5 SUB Vx, Vy: Vx − Vy modulo 256, VF = 1 iff Vx > Vy (R73). -/
def execSubReg (x y : Reg) (s : State) : Outcome :=
  .next (writeVFlag s x (readV s x - readV s y) (noBorrowFlag (readV s x) (readV s y)))

/-- 8XY6 SHR Vx, Vy: Vy shifted right by one into Vx, VF = bit 0 of Vy (R74). -/
def execShr (x y : Reg) (s : State) : Outcome :=
  .next (writeVFlag s x (readV s y >>> 1) (shrFlag (readV s y)))

/-- 8XY7 SUBN Vx, Vy: Vy − Vx modulo 256, VF = 1 iff Vy > Vx (R75). -/
def execSubn (x y : Reg) (s : State) : Outcome :=
  .next (writeVFlag s x (readV s y - readV s x) (noBorrowFlag (readV s y) (readV s x)))

/-- 8XYE SHL Vx, Vy: Vy shifted left by one into Vx, VF = bit 7 of Vy (R76). -/
def execShl (x y : Reg) (s : State) : Outcome :=
  .next (writeVFlag s x (readV s y <<< 1) (shlFlag (readV s y)))

/-- CXNN RND Vx, NN: one random byte under the mask NN (R77, R103; free value, log 2). -/
def execRnd (x : Reg) (nn : Byte) (s : State) : Outcome :=
  .next (writeV (drawRand s).2 x ((drawRand s).1 &&& nn))

end Sys2Proof.Machine
end

