-- ==== Sys2Proof/Machine/Control.lean ====
section
/-! DEFINITION. Control transfer (spec 41_control.md R57 to R65). PC already holds the instruction's address + 2 (R9). -/

namespace Sys2Proof.Machine

/-- 0NNN SYS NNN: nothing (R57). -/
def execSys (_nnn : Imm12) (s : State) : Outcome := .next s

/-- 00EE RET: STACK_UNDERFLOW when SP = 0; else pop into PC (R58). -/
def execRet (s : State) : Outcome :=
  match popReturn s with
  | none => .next (raiseFault .stackUnderflow s)
  | some (w, t) => .next (setPc t w)

/-- 1NNN JP NNN (R59). -/
def execJp (nnn : Imm12) (s : State) : Outcome := .next (setPc s (targetOf nnn))

/-- 2NNN CALL NNN: STACK_OVERFLOW when SP = 16; else push PC and jump (R60). -/
def execCall (nnn : Imm12) (s : State) : Outcome :=
  match pushReturn s s.pc with
  | none => .next (raiseFault .stackOverflow s)
  | some t => .next (setPc t (targetOf nnn))

/-- 3XNN SE Vx, NN: skip if equal (R62). -/
def execSeImm (x : Reg) (nn : Byte) (s : State) : Outcome := .next (skipIf (readV s x == nn) s)

/-- 4XNN SNE Vx, NN: skip if not equal (R63). -/
def execSneImm (x : Reg) (nn : Byte) (s : State) : Outcome := .next (skipIf (readV s x != nn) s)

/-- 5XY0 SE Vx, Vy: skip if equal (R64). -/
def execSeReg (x y : Reg) (s : State) : Outcome := .next (skipIf (readV s x == readV s y) s)

/-- 9XY0 SNE Vx, Vy: skip if not equal (R65). -/
def execSneReg (x y : Reg) (s : State) : Outcome := .next (skipIf (readV s x != readV s y) s)

/-- BNNN JP V0, NNN: V0 + NNN, not masked to 12 bits (R61). -/
def execJpV0 (nnn : Imm12) (s : State) : Outcome :=
  .next (setPc s ((readV s 0).zeroExtend 16 + targetOf nnn))

end Sys2Proof.Machine
end

