-- ==== Sys2Proof/Machine/Display.lean ====
section
/-! DEFINITION. Display instructions (spec 40_display.md R55, R56). -/

namespace Sys2Proof.Machine

/-- 00E0 CLS: every pixel false (R55). -/
def execCls (s : State) : Outcome := .next (setDisplay s clearDisplay)

/-- What drawing N sprite rows from I at (Vx mod 64, Vy mod 32) makes of the display, with the collision noted (R56).
Both coordinates are read before VF is written (R49). -/
def spriteCanvas (x y : Reg) (n : Fin 16) (s : State) : Canvas :=
  drawRows s.mem (indexAddr s 0) (spriteColumn (readV s x)) (spriteRow (readV s y)) (List.range n.val)
    { display := s.display, collided := false }

/-- DXYN DRW Vx, Vy, N: XOR sprite, VF = collision, written even when nothing is drawn (R56). -/
def execDrw (x y : Reg) (n : Fin 16) (s : State) : Outcome :=
  .next (writeV (setDisplay s (spriteCanvas x y n s).display) vf (collisionFlag (spriteCanvas x y n s)))

end Sys2Proof.Machine
end

