-- ==== Sys2Proof/Machine/Index.lean ====
section
/-! DEFINITION. Index register and memory instructions (spec 43_index_memory.md R78 to R83). I is never modified by an access. -/

namespace Sys2Proof.Machine

/-- ANNN LD I, NNN (R78). -/
def execLdI (nnn : Imm12) (s : State) : Outcome := .next (setI s (targetOf nnn))

/-- FX1E ADD I, Vx: modulo 2^16, VF unchanged (R79; decision D23). -/
def execAddI (x : Reg) (s : State) : Outcome := .next (setI s (s.i + (readV s x).zeroExtend 16))

/-- FX29 LD F, Vx: I <- 0x050 + 5·Vx (R80). -/
def execLdF (x : Reg) (s : State) : Outcome := .next (setI s (glyphAddr (readV s x)))

/-- FX33 LD B, Vx: hundreds, tens and ones at I, I + 1, I + 2, each address reduced separately (R81). -/
def execLdB (x : Reg) (s : State) : Outcome :=
  .next (setMem s
    (memWrite
      (memWrite (memWrite s.mem (indexAddr s 0) (bcdHundreds (readV s x))) (indexAddr s 1) (bcdTens (readV s x)))
      (indexAddr s 2) (bcdOnes (readV s x))))

/-- FX55 LD [I], Vx: store V0..Vx (R82). -/
def execStoreRegs (x : Reg) (s : State) : Outcome :=
  .next (setMem s (storeBlock s.v (indexAddr s 0) (regsUpTo x) s.mem))

/-- FX65 LD Vx, [I]: load V0..Vx (R83). -/
def execLoadRegs (x : Reg) (s : State) : Outcome :=
  .next (setRegs s (loadBlock s.mem (indexAddr s 0) (regsUpTo x) s.v))

end Sys2Proof.Machine
end

