-- ==== Sys2Proof/Machine/KeysTimers.lean ====
section
/-! DEFINITION. Key and timer instructions (spec 44_timers_keys.md R84 to R89). -/

namespace Sys2Proof.Machine

/-- EX9E SKP Vx: KEY_RANGE when Vx > 15; else skip if the key is pressed (R84). -/
def execSkp (x : Reg) (s : State) : Outcome :=
  match keyIndex (readV s x) with
  | none => .next (raiseFault .keyRange s)
  | some k => .next (skipIf s.keys[k] s)

/-- EXA1 SKNP Vx: KEY_RANGE when Vx > 15; else skip if the key is not pressed (R85). -/
def execSknp (x : Reg) (s : State) : Outcome :=
  match keyIndex (readV s x) with
  | none => .next (raiseFault .keyRange s)
  | some k => .next (skipIf (!s.keys[k]) s)

/-- FX07 LD Vx, DT (R86). -/
def execLdVxDt (x : Reg) (s : State) : Outcome := .next (writeV s x s.dt)

/-- FX0A LD Vx, K: the least pressed key into Vx; with none pressed, PC back to this instruction (R87). -/
def execLdVxK (x : Reg) (s : State) : Outcome :=
  match firstKey s.keys with
  | some k => .next (writeV s x (BitVec.ofNat 8 k.val))
  | none => .next (rewindPc s)

/-- FX15 LD DT, Vx (R88). -/
def execLdDtVx (x : Reg) (s : State) : Outcome := .next (setDt s (readV s x))

/-- FX18 LD ST, Vx (R89). -/
def execLdStVx (x : Reg) (s : State) : Outcome := .next (setSt s (readV s x))

end Sys2Proof.Machine
end

