-- ==== Sys2Proof/Syntax.lean ====
section
/-! DEFINITION. The 35 instructions of spec/opcode_table.json (spec 30_encoding.md R46), one constructor a row, in the
table's order. Operands are the fields of R42: `x`, `y` register names, `nn` a byte, `nnn` a 12-bit address, `n` a count. -/

namespace Sys2Proof

/-- The instruction set (R46). -/
inductive Instr where
  /-- 0NNN SYS NNN (R57) -/
  | sys (nnn : Imm12)
  /-- 00E0 CLS (R55) -/
  | cls
  /-- 00EE RET (R58) -/
  | ret
  /-- 1NNN JP NNN (R59) -/
  | jp (nnn : Imm12)
  /-- 2NNN CALL NNN (R60) -/
  | call (nnn : Imm12)
  /-- 3XNN SE Vx, NN (R62) -/
  | seImm (x : Reg) (nn : Byte)
  /-- 4XNN SNE Vx, NN (R63) -/
  | sneImm (x : Reg) (nn : Byte)
  /-- 5XY0 SE Vx, Vy (R64) -/
  | seReg (x y : Reg)
  /-- 6XNN LD Vx, NN (R66) -/
  | ldImm (x : Reg) (nn : Byte)
  /-- 7XNN ADD Vx, NN (R67) -/
  | addImm (x : Reg) (nn : Byte)
  /-- 8XY0 LD Vx, Vy (R68) -/
  | ldReg (x y : Reg)
  /-- 8XY1 OR Vx, Vy (R69) -/
  | orReg (x y : Reg)
  /-- 8XY2 AND Vx, Vy (R70) -/
  | andReg (x y : Reg)
  /-- 8XY3 XOR Vx, Vy (R71) -/
  | xorReg (x y : Reg)
  /-- 8XY4 ADD Vx, Vy (R72) -/
  | addReg (x y : Reg)
  /-- 8XY5 SUB Vx, Vy (R73) -/
  | subReg (x y : Reg)
  /-- 8XY6 SHR Vx, Vy (R74) -/
  | shr (x y : Reg)
  /-- 8XY7 SUBN Vx, Vy (R75) -/
  | subn (x y : Reg)
  /-- 8XYE SHL Vx, Vy (R76) -/
  | shl (x y : Reg)
  /-- 9XY0 SNE Vx, Vy (R65) -/
  | sneReg (x y : Reg)
  /-- ANNN LD I, NNN (R78) -/
  | ldI (nnn : Imm12)
  /-- BNNN JP V0, NNN (R61) -/
  | jpV0 (nnn : Imm12)
  /-- CXNN RND Vx, NN (R77) -/
  | rnd (x : Reg) (nn : Byte)
  /-- DXYN DRW Vx, Vy, N (R56) -/
  | drw (x y : Reg) (n : Fin 16)
  /-- EX9E SKP Vx (R84) -/
  | skp (x : Reg)
  /-- EXA1 SKNP Vx (R85) -/
  | sknp (x : Reg)
  /-- FX07 LD Vx, DT (R86) -/
  | ldVxDt (x : Reg)
  /-- FX0A LD Vx, K (R87) -/
  | ldVxK (x : Reg)
  /-- FX15 LD DT, Vx (R88) -/
  | ldDtVx (x : Reg)
  /-- FX18 LD ST, Vx (R89) -/
  | ldStVx (x : Reg)
  /-- FX1E ADD I, Vx (R79) -/
  | addI (x : Reg)
  /-- FX29 LD F, Vx (R80) -/
  | ldF (x : Reg)
  /-- FX33 LD B, Vx (R81) -/
  | ldB (x : Reg)
  /-- FX55 LD [I], Vx (R82) -/
  | storeRegs (x : Reg)
  /-- FX65 LD Vx, [I] (R83) -/
  | loadRegs (x : Reg)
  deriving DecidableEq, Repr

end Sys2Proof
end

