-- ==== Sys2Proof/Decode.lean ====
section
/-! DEFINITION. Fields, decoder and encoder of an instruction word (spec 30_encoding.md R41 to R47, R54). -/

namespace Sys2Proof

/-- The word of two consecutive bytes of memory: the first byte is w[15:8] (R34, R45; decision D2). -/
def wordOfBytes (hi lo : Byte) : Word := hi ++ lo

/-- The family nibble n1 = w[15:12] (R42). -/
def fieldFamily (w : Word) : Fin 16 := ⟨(w.extractLsb' 12 4).toNat, (w.extractLsb' 12 4).isLt⟩

/-- The field X = w[11:8] (R42). -/
def fieldX (w : Word) : Reg := ⟨(w.extractLsb' 8 4).toNat, (w.extractLsb' 8 4).isLt⟩

/-- The field Y = w[7:4] (R42). -/
def fieldY (w : Word) : Reg := ⟨(w.extractLsb' 4 4).toNat, (w.extractLsb' 4 4).isLt⟩

/-- The field N = w[3:0] (R42). -/
def fieldN (w : Word) : Fin 16 := ⟨(w.extractLsb' 0 4).toNat, (w.extractLsb' 0 4).isLt⟩

/-- The field NN = w[7:0] (R42). -/
def fieldNN (w : Word) : Byte := w.extractLsb' 0 8

/-- The field NNN = w[11:0] (R42). -/
def fieldNNN (w : Word) : Imm12 := w.extractLsb' 0 12

/-- Why a decoder answers no instruction. Neither stops the machine: an unrecognised word is a no-op (R47). -/
inductive Reject where
  /-- The word matches no row of R46; the step executes it as a no-op (R47). -/
  | unrecognized (w : Word)
  /-- Fewer than two bytes were given; a fetch always gives two (R41, R45). -/
  | truncated
  deriving DecidableEq, Repr

/-- What the decoder answers: an instruction, or a rejection by name. -/
inductive Decoded where
  | instr (i : Instr)
  | reject (r : Reject)
  deriving DecidableEq, Repr

/-- Family 0: CLS and RET are tested before SYS (R46). -/
def decodeFamily0 (w : Word) : Instr :=
  if fieldNNN w = 0x0E0 then .cls
  else if fieldNNN w = 0x0EE then .ret
  else .sys (fieldNNN w)

/-- Family 8: the low nibble selects the operation; 8..D and F are unrecognised (R46, R47). -/
def decodeFamily8 (w : Word) : Decoded :=
  if fieldN w = 0x0 then .instr (.ldReg (fieldX w) (fieldY w))
  else if fieldN w = 0x1 then .instr (.orReg (fieldX w) (fieldY w))
  else if fieldN w = 0x2 then .instr (.andReg (fieldX w) (fieldY w))
  else if fieldN w = 0x3 then .instr (.xorReg (fieldX w) (fieldY w))
  else if fieldN w = 0x4 then .instr (.addReg (fieldX w) (fieldY w))
  else if fieldN w = 0x5 then .instr (.subReg (fieldX w) (fieldY w))
  else if fieldN w = 0x6 then .instr (.shr (fieldX w) (fieldY w))
  else if fieldN w = 0x7 then .instr (.subn (fieldX w) (fieldY w))
  else if fieldN w = 0xE then .instr (.shl (fieldX w) (fieldY w))
  else .reject (.unrecognized w)

/-- Family E: the low byte selects SKP or SKNP; every other is unrecognised (R46, R47). -/
def decodeFamilyE (w : Word) : Decoded :=
  if fieldNN w = 0x9E then .instr (.skp (fieldX w))
  else if fieldNN w = 0xA1 then .instr (.sknp (fieldX w))
  else .reject (.unrecognized w)

/-- Family F: the low byte selects the operation; every other is unrecognised (R46, R47). -/
def decodeFamilyF (w : Word) : Decoded :=
  if fieldNN w = 0x07 then .instr (.ldVxDt (fieldX w))
  else if fieldNN w = 0x0A then .instr (.ldVxK (fieldX w))
  else if fieldNN w = 0x15 then .instr (.ldDtVx (fieldX w))
  else if fieldNN w = 0x18 then .instr (.ldStVx (fieldX w))
  else if fieldNN w = 0x1E then .instr (.addI (fieldX w))
  else if fieldNN w = 0x29 then .instr (.ldF (fieldX w))
  else if fieldNN w = 0x33 then .instr (.ldB (fieldX w))
  else if fieldNN w = 0x55 then .instr (.storeRegs (fieldX w))
  else if fieldNN w = 0x65 then .instr (.loadRegs (fieldX w))
  else .reject (.unrecognized w)

/-- The opcode map: the family nibble selects the rows, fixed low digits must all match (R46, R47; decision D5). -/
def decodeWord (w : Word) : Decoded :=
  match fieldFamily w with
  | 0x0 => .instr (decodeFamily0 w)
  | 0x1 => .instr (.jp (fieldNNN w))
  | 0x2 => .instr (.call (fieldNNN w))
  | 0x3 => .instr (.seImm (fieldX w) (fieldNN w))
  | 0x4 => .instr (.sneImm (fieldX w) (fieldNN w))
  | 0x5 => if fieldN w = 0 then .instr (.seReg (fieldX w) (fieldY w)) else .reject (.unrecognized w)
  | 0x6 => .instr (.ldImm (fieldX w) (fieldNN w))
  | 0x7 => .instr (.addImm (fieldX w) (fieldNN w))
  | 0x8 => decodeFamily8 w
  | 0x9 => if fieldN w = 0 then .instr (.sneReg (fieldX w) (fieldY w)) else .reject (.unrecognized w)
  | 0xA => .instr (.ldI (fieldNNN w))
  | 0xB => .instr (.jpV0 (fieldNNN w))
  | 0xC => .instr (.rnd (fieldX w) (fieldNN w))
  | 0xD => .instr (.drw (fieldX w) (fieldY w) (fieldN w))
  | 0xE => decodeFamilyE w
  | _ => decodeFamilyF w -- 0xF, the only family left

/-- The decoder on the bytes of memory: two bytes make one instruction, whatever follows (R41). -/
def decodeBytes : List Byte → Decoded
  | hi :: lo :: _ => decodeWord (wordOfBytes hi lo)
  | _ => .reject .truncated

/-- Format A, `oooo NNNN NNNN NNNN` (R44). -/
def wordA (family : BitVec 4) (nnn : Imm12) : Word := family ++ nnn

/-- Formats RI and R, `oooo XXXX NNNN NNNN` and `oooo XXXX oooo oooo` (R44). -/
def wordRI (family : BitVec 4) (x : Reg) (nn : Byte) : Word := family ++ BitVec.ofNat 4 x.val ++ nn

/-- Formats RR and RRN, `oooo XXXX YYYY oooo` and `oooo XXXX YYYY NNNN` (R44). -/
def wordRR (family : BitVec 4) (x y : Reg) (n : BitVec 4) : Word :=
  family ++ BitVec.ofNat 4 x.val ++ BitVec.ofNat 4 y.val ++ n

/-- The word of an instruction, row by row from R46 (a word for every term; the instruction's own for a well-formed one). -/
def encode : Instr → Word
  | .sys nnn => wordA 0x0 nnn
  | .cls => 0x00E0
  | .ret => 0x00EE
  | .jp nnn => wordA 0x1 nnn
  | .call nnn => wordA 0x2 nnn
  | .seImm x nn => wordRI 0x3 x nn
  | .sneImm x nn => wordRI 0x4 x nn
  | .seReg x y => wordRR 0x5 x y 0x0
  | .ldImm x nn => wordRI 0x6 x nn
  | .addImm x nn => wordRI 0x7 x nn
  | .ldReg x y => wordRR 0x8 x y 0x0
  | .orReg x y => wordRR 0x8 x y 0x1
  | .andReg x y => wordRR 0x8 x y 0x2
  | .xorReg x y => wordRR 0x8 x y 0x3
  | .addReg x y => wordRR 0x8 x y 0x4
  | .subReg x y => wordRR 0x8 x y 0x5
  | .shr x y => wordRR 0x8 x y 0x6
  | .subn x y => wordRR 0x8 x y 0x7
  | .shl x y => wordRR 0x8 x y 0xE
  | .sneReg x y => wordRR 0x9 x y 0x0
  | .ldI nnn => wordA 0xA nnn
  | .jpV0 nnn => wordA 0xB nnn
  | .rnd x nn => wordRI 0xC x nn
  | .drw x y n => wordRR 0xD x y (BitVec.ofNat 4 n.val)
  | .skp x => wordRI 0xE x 0x9E
  | .sknp x => wordRI 0xE x 0xA1
  | .ldVxDt x => wordRI 0xF x 0x07
  | .ldVxK x => wordRI 0xF x 0x0A
  | .ldDtVx x => wordRI 0xF x 0x15
  | .ldStVx x => wordRI 0xF x 0x18
  | .addI x => wordRI 0xF x 0x1E
  | .ldF x => wordRI 0xF x 0x29
  | .ldB x => wordRI 0xF x 0x33
  | .storeRegs x => wordRI 0xF x 0x55
  | .loadRegs x => wordRI 0xF x 0x65

/-- A word's two bytes in memory order, most significant first (R34, R54). -/
def bytesOfWord (w : Word) : List Byte := [w.extractLsb' 8 8, w.extractLsb' 0 8]

/-- An instruction's two bytes in memory order (R54). -/
def encodeBytes (i : Instr) : List Byte := bytesOfWord (encode i)

/-- The bits `w` of a table row of `nbits` bits, as a 16-bit word: what lies above `nbits` is 0. DESIGN CHOICE (log 12):
what lies above bit 15 is no part of an instruction; safe. -/
def tableWord (nbits w : Nat) : Word := BitVec.ofNat 16 (w % 2 ^ nbits)

/-- The instruction the decoder reads from a table row's bits laid out in memory (the host's question; log 12). -/
def decodeTableWord (nbits w : Nat) : Option Instr :=
  match decodeBytes (bytesOfWord (tableWord nbits w)) with
  | .instr i => some i
  | .reject _ => none

end Sys2Proof
end

