-- ==== Sys2Proof/Machine/Fetch.lean ====
section
/-! DEFINITION. Fetching the instruction word, and what an unrecognised word does (spec 30_encoding.md R45, R47). -/

namespace Sys2Proof.Machine

/-- `w = MemRead(PC, 1) : MemRead(PC + 1, 1)`, each address reduced modulo 4096 (R34, R45; decision D9). -/
def fetchWord (s : State) : Word := wordOfBytes (memRead s.mem s.pc.toNat) (memRead s.mem (s.pc.toNat + 1))

/-- An unrecognised word, once PC has been advanced: no further effect (R47). -/
def execUnrecognized (s : State) : Outcome := .next s

/-- Memory with the word `w` where the next fetch reads it. -/
def placeWord (s : State) (w : Word) : Memory :=
  memWrite (memWrite s.mem s.pc.toNat (w.extractLsb' 8 8)) (s.pc.toNat + 1) (w.extractLsb' 0 8)

end Sys2Proof.Machine
end

