-- ==== Sys2Proof/Machine/Step.lean ====
section
/-! DEFINITION. The step cycle (spec 30_encoding.md R45). -/

namespace Sys2Proof.Machine

/-- One fetch-decode-execute cycle (R45, R99): nothing while FAULT ≠ NONE (R93); else fetch, advance PC by 2, and execute
the instruction the word decodes to, or nothing for an unrecognised word (R47). -/
def step (s : State) : Host.Outcome State Fault Refusal :=
  if halted s then .next s
  else
    match decodeWord (fetchWord s) with
    | .instr i => exec i (advancePc s)
    | .reject _ => execUnrecognized (advancePc s)

/-- The host's placing of a table row's word where `step` fetches its next instruction. A faulted core fetches nothing
(R93), so FAULT is NONE in the answer (DESIGN CHOICE, log 7; safe). This is a tool of the host's, no operation of the block. -/
def State.withFetchWord (s : State) (nbits w : Nat) : State :=
  setFault (setMem s (placeWord s (tableWord nbits w))) .none

end Sys2Proof.Machine
end

