-- ==== Sys2Proof/Machine/HostPort.lean ====
section
/-! DEFINITION. The host's operations on the block (spec 60_exceptions.md R98 to R105; 70_reset_and_hazards.md R111 to R114). -/

namespace Sys2Proof.Machine

/-! ### Initialisation -/

/-- The failure the host receives for a program that does not fit (R113); it is no fault of R91. -/
inductive LoadFailure where
  /-- the program is longer than 3584 bytes (R113) -/
  | sizeLimit
  deriving DecidableEq, Repr

/-- Copy the bytes in order to `a`, `a + 1`, … (R112). -/
def loadBytes (m : Memory) : Nat → List Byte → Memory
  | _, [] => m
  | a, b :: bs => loadBytes (memWrite m a b) (a + 1) bs

/-- `init(prog)`: the size check first, then reset, then the program at 0x200 (R112, R113, R114). -/
def State.init (prog : List Byte) : Except LoadFailure State :=
  if prog.length > Config.maxProg then .error .sizeLimit
  else .ok (setMem State.reset (loadBytes State.reset.mem Config.entry prog))

/-! ### Timer tick and key matrix -/

/-- One less, floored at 0 (R100). -/
def tickDown (b : Byte) : Byte := if b.toNat > 0 then b - 1 else 0

/-- `tick()`: both timers in one operation, on a faulted core too (R93, R100; decision D24). -/
def tick (s : State) : State := setSt (setDt s (tickDown s.dt)) (tickDown s.st)

/-- `set_keys(k)`: all 16 entries in one operation (R101; decision D30). -/
def setKeys (k : Vector Bool 16) (s : State) : State := replaceKeys s k

/-! ### Queries: no side effects -/

/-- A row number wrapped modulo 32, Euclidean for negative numbers (R7, R102; decision D20). -/
def rowOf (y : Int) : Fin 32 := ⟨(y % 32).toNat, by omega⟩

/-- A column number wrapped modulo 64, Euclidean for negative numbers (R7, R102; decision D20). -/
def columnOf (x : Int) : Fin 64 := ⟨(x % 64).toNat, by omega⟩

/-- `get_px(x, y) = D[y mod 32][x mod 64]` for any integers (R102). -/
def getPx (s : State) (x y : Int) : Bool := pixel s.display (rowOf y) (columnOf x)

/-- The sound output: ST as a value (R105). -/
def soundOutput (s : State) : Byte := s.st

/-- The state elements of R28, each of which the host can inspect (R27, R104). -/
inductive Element where
  | v (x : Reg)
  | i
  | pc
  | sp
  | s (k : Fin 16)
  | dt
  | st
  | k (j : Fin 16)
  | d (y : Fin 32) (x : Fin 64)
  | m (a : Fin 4096)
  | fault
  deriving DecidableEq, Repr

/-- The value of an element, as a number: a boolean is 0 or 1, FAULT its code (R91, R104; log 13). -/
def inspect (s : State) : Element → Nat
  | .v x => (readV s x).toNat
  | .i => s.i.toNat
  | .pc => s.pc.toNat
  | .sp => s.sp.val
  | .s k => s.stack[k].toNat
  | .dt => s.dt.toNat
  | .st => s.st.toNat
  | .k j => s.keys[j].toNat
  | .d y x => (pixel s.display y x).toNat
  | .m a => (memRead s.mem a.val).toNat
  | .fault => s.faultReg.code

/-! ### Runs: steps, ticks and key updates in any order (R11, R119; log 8) -/

/-- The host operations that change state after initialisation (R104). -/
inductive HostOp where
  | step
  | tick
  | setKeys (k : Vector Bool 16)
  deriving DecidableEq, Repr

/-- One operation, one atomic transition (R11). -/
def applyOp : HostOp → State → Outcome
  | .step, s => Sys2Proof.Machine.step s
  | .tick, s => .next (tick s)
  | .setKeys k, s => .next (setKeys k s)

/-- The operations in order, stopping at the first that answers no next state. -/
def runOps : List HostOp → State → Outcome
  | [], s => .next s
  | op :: ops, s =>
    match applyOp op s with
    | .next t => runOps ops t
    | .fault r => .fault r
    | .refused r => .refused r

end Sys2Proof.Machine
end

