-- ==== Sys2Proof/Safety.lean ====
section
/-! DEFINITION. The terms claims are stated in: what a transition leaves unchanged, the quiescent conditions of spec
60_exceptions.md R110, and the invariant of the model. -/

namespace Sys2Proof.Machine

/-! ### Frames -/

/-- Between `s` and `t` every element the host can inspect (R104) has kept its value, but for those in `changed`. -/
def OnlyChanges (changed : Element → Prop) (s t : State) : Prop :=
  ∀ e : Element, ¬ changed e → inspect t e = inspect s e

/-- The model's own count of random bytes is unchanged: nothing was drawn (R103). -/
def NoDraw (s t : State) : Prop := t.draws = s.draws

/-- The frame of an operation that draws nothing: only the elements in `changed` may differ. -/
def Frame (changed : Element → Prop) (s t : State) : Prop := OnlyChanges changed s t ∧ NoDraw s t

/-- No element at all. -/
def noElement : Element → Prop := fun _ => False

/-- One element. -/
def only (e : Element) : Element → Prop := fun e' => e' = e

/-- One element or another. -/
def either (e f : Element) : Element → Prop := fun e' => e' = e ∨ e' = f

/-- The pixels of the display. -/
def anyPixel : Element → Prop := fun e => ∃ y x, e = .d y x

/-- The bytes of memory. -/
def anyByte : Element → Prop := fun e => ∃ a, e = .m a

/-- The registers V0..Vx (R82, R83). -/
def registersUpTo (x : Reg) : Element → Prop := fun e => ∃ k : Reg, k ≤ x ∧ e = .v k

/-- The registers an 8XY4..8XYE instruction writes: its destination and the flag (R13, R49). -/
def destAndFlag (x : Reg) : Element → Prop := either (.v x) (.v vf)

/-- The elements an instruction may write beyond the fetch's advance of PC, row by row from the "written by" column of
R28, R13 and the instruction's own rule. No instruction writes a key (R20), and FAULT only where a fault is raised (R91). -/
def Writes : Instr → Element → Prop
  | .sys _ => noElement
  | .cls => anyPixel
  | .ret => fun e => e = .pc ∨ e = .sp ∨ e = .fault
  | .jp _ | .jpV0 _ => only .pc
  | .call _ => fun e => e = .pc ∨ e = .sp ∨ e = .fault ∨ ∃ k, e = .s k
  | .seImm _ _ | .sneImm _ _ | .seReg _ _ | .sneReg _ _ => only .pc
  | .ldImm x _ | .addImm x _ | .rnd x _ => only (.v x)
  | .ldReg x _ | .orReg x _ | .andReg x _ | .xorReg x _ => only (.v x)
  | .addReg x _ | .subReg x _ | .shr x _ | .subn x _ | .shl x _ => destAndFlag x
  | .ldI _ | .addI _ | .ldF _ => only .i
  | .drw _ _ _ => fun e => e = .v vf ∨ anyPixel e
  | .skp _ | .sknp _ => either .pc .fault
  | .ldVxDt x => only (.v x)
  | .ldVxK x => either (.v x) .pc
  | .ldDtVx _ => only .dt
  | .ldStVx _ => only .st
  | .ldB _ | .storeRegs _ => anyByte
  | .loadRegs x => registersUpTo x

/-! ### Terms of the rules -/

/-- The unrecognised words, as R47 lists them. -/
abbrev UnrecognizedWord (w : Word) : Prop :=
  (fieldFamily w = 0x5 ∧ fieldN w ≠ 0) ∨
  (fieldFamily w = 0x8 ∧ (fieldN w = 0x8 ∨ fieldN w = 0x9 ∨ fieldN w = 0xA ∨ fieldN w = 0xB ∨ fieldN w = 0xC ∨
    fieldN w = 0xD ∨ fieldN w = 0xF)) ∨
  (fieldFamily w = 0x9 ∧ fieldN w ≠ 0) ∨
  (fieldFamily w = 0xE ∧ fieldNN w ≠ 0x9E ∧ fieldNN w ≠ 0xA1) ∨
  (fieldFamily w = 0xF ∧ fieldNN w ≠ 0x07 ∧ fieldNN w ≠ 0x0A ∧ fieldNN w ≠ 0x15 ∧ fieldNN w ≠ 0x18 ∧
    fieldNN w ≠ 0x1E ∧ fieldNN w ≠ 0x29 ∧ fieldNN w ≠ 0x33 ∧ fieldNN w ≠ 0x55 ∧ fieldNN w ≠ 0x65)

/-- DXYN draws a set sprite bit on the pixel of row `py`, column `px`: bit 7 − c of the byte at I + r, on row
(Vy mod 32 + r) mod 32 and column Vx mod 64 + c, which lies on the display (R56). -/
def SpriteCovers (s : State) (x y : Reg) (n : Fin 16) (py : Fin 32) (px : Fin 64) : Prop :=
  ∃ r c : Nat, r < n.val ∧ c < 8 ∧ py.val = ((readV s y).toNat % 32 + r) % 32 ∧
    px.val = (readV s x).toNat % 64 + c ∧ (memRead s.mem (indexAddr s r)).getLsbD (7 - c) = true

/-! ### Quiescent conditions (R110) -/

/-- FAULTED: FAULT ≠ NONE (R93, R110). -/
abbrev Faulted (s : State) : Prop := s.faultReg ≠ .none

/-- SELF-LOOP: the word at PC is 1NNN with NNN, zero-extended, equal to PC (R110). -/
abbrev SelfLoop (s : State) : Prop :=
  fieldFamily (fetchWord s) = 1 ∧ targetOf (fieldNNN (fetchWord s)) = s.pc

/-- The two conditions in which every later step changes nothing (R110). -/
abbrev Quiescent (s : State) : Prop := Faulted s ∨ SelfLoop s

/-- FX0A stands at PC and no key is pressed: a step changes nothing, but only until a key is set (R87, R110). -/
abbrev WaitingForKey (s : State) : Prop :=
  (∃ x : Reg, fetchWord s = wordRI 0xF x 0x0A) ∧ ∀ j : Fin 16, s.keys[j] = false

/-! ### Safety -/

/-- The model's invariant: memory has its canonical form (log 11). -/
abbrev Inv (s : State) : Prop := memWf s.mem = true

/-- A run of host operations from `s` is safe when it reaches a state and the core has not faulted there: a faulted
core is never a good end (decision D15). FAULT is sticky (R93), so the last state tells of the whole run. -/
def SafeRun (ops : List HostOp) (s : State) : Prop := ∃ t, runOps ops s = .next t ∧ ¬ Faulted t

end Sys2Proof.Machine
end

