-- ==== Sys2Proof/Certificates/Slice0/Obligations.lean ====
section
/-! DEFINITION. The statements for the provers. A statement about an instruction speaks of `exec`, at the state after the
fetch has advanced PC (spec 00_scope.md R9); where the rule gives a fault, its clause speaks of `step`, since a fault undoes
the whole step (R92). "Frame p s t" says that no element the host can inspect (R104) differs between s and t, but for those in p. -/

open Sys2Proof Sys2Proof.Machine

/-! ### Reset and initialisation -/

/-- R111: every element after reset, as the pseudocode gives it; FONT is the parameter, byte by byte (`fontByte`), whatever its
bytes are. -/
def Obligations.ResetGivesEveryElementItsValue : Prop :=
  (∀ x : Reg, readV State.reset x = 0) ∧ State.reset.i = 0 ∧ State.reset.pc = 0x200 ∧ State.reset.sp = 0 ∧
  (∀ k : Fin 16, State.reset.stack[k] = 0) ∧ State.reset.dt = 0 ∧ State.reset.st = 0 ∧
  (∀ k : Fin 16, State.reset.keys[k] = false) ∧
  (∀ (y : Fin 32) (x : Fin 64), pixel State.reset.display y x = false) ∧
  (∀ a, a < 4096 → ¬ (0x050 ≤ a ∧ a < 0x0A0) → memRead State.reset.mem a = 0) ∧
  (∀ j, j < 80 → memRead State.reset.mem (0x050 + j) = fontByte j) ∧
  State.reset.faultReg = .none

/-- R112: a program of at most 3584 bytes is accepted; its bytes stand from 0x200 in order, every other byte of memory and every
other element is at its reset value. -/
def Obligations.InitLoadsTheProgramAt0x200 : Prop :=
  ∀ prog : List Byte, prog.length ≤ 3584 → ∃ t, State.init prog = .ok t ∧
    (∀ j (h : j < prog.length), memRead t.mem (0x200 + j) = prog[j]) ∧
    (∀ a, a < 4096 → (∀ j, j < prog.length → a ≠ 0x200 + j) → memRead t.mem a = memRead State.reset.mem a) ∧
    Frame anyByte State.reset t

/-- R113: a program is rejected with the size-limit failure, and no state results, exactly when it is longer than 3584 bytes; one
of exactly 3584 bytes succeeds and its last byte stands at 0x200 + 3583. -/
def Obligations.OversizeProgramIsRejected : Prop :=
  ∀ prog : List Byte, (State.init prog = .error .sizeLimit ↔ 3584 < prog.length) ∧
    (∀ h : prog.length = 3584, ∃ t, State.init prog = .ok t ∧ memRead t.mem (0x200 + 3583) = prog[3583])

/-! ### Encoding -/

/-- R46: the decoder gives back every well-formed instruction from the two bytes an assembler emits for it, with every operand at
every value. -/
def Obligations.DecodingTheEncodedBytesGivesTheInstruction : Prop :=
  ∀ i : Instr, i.wellFormed = true → decodeBytes (encodeBytes i) = .instr i

/-- R46, R54: a word that decodes has no other spelling: the instruction is well-formed and its encoding is that word. -/
def Obligations.EveryDecodedWordIsItsInstructionsEncoding : Prop :=
  ∀ (w : Word) (i : Instr), decodeWord w = .instr i → i.wellFormed = true ∧ encode i = w

/-- R46: words written out from the table's patterns decode to the instructions they stand for (one or more of every family). -/
def Obligations.WordsOfTheTableDecodeAsWritten : Prop :=
  decodeWord 0x0123 = .instr (.sys 0x123) ∧ decodeWord 0x00E0 = .instr .cls ∧ decodeWord 0x22AC = .instr (.call 0x2AC) ∧
  decodeWord 0x6A2F = .instr (.ldImm 0xA 0x2F) ∧ decodeWord 0x812E = .instr (.shl 1 2) ∧
  decodeWord 0xD235 = .instr (.drw 2 3 5) ∧ decodeWord 0xF355 = .instr (.storeRegs 3) ∧
  decodeWord 0xE5A1 = .instr (.sknp 5) ∧ decodeWord 0x5121 = .reject (.unrecognized 0x5121)

/-! ### The step cycle and faults -/

/-- R45, R41, R9: on a core that has not faulted, when the two bytes at PC and PC + 1 decode to an instruction, a step is that
instruction's execution on the state whose PC has been advanced by 2 and which differs in nothing else. -/
def Obligations.StepRunsTheInstructionAtPc : Prop :=
  ∀ (s : State) (i : Instr), s.faultReg = .none →
    decodeBytes [memRead s.mem s.pc.toNat, memRead s.mem (s.pc.toNat + 1)] = .instr i →
    step s = exec i (advancePc s) ∧ (advancePc s).pc = s.pc + 2 ∧ Frame (only .pc) s (advancePc s)

/-- R47: the words listed there, and no others, are unrecognised, and a step on one only advances PC by 2. -/
def Obligations.UnrecognizedWordsOnlyAdvancePc : Prop :=
  (∀ w : Word, decodeWord w = .reject (.unrecognized w) ↔ UnrecognizedWord w) ∧
  (∀ w : Word, ¬ UnrecognizedWord w → ∃ i, decodeWord w = .instr i) ∧
  (∀ s : State, s.faultReg = .none → UnrecognizedWord (fetchWord s) →
    ∃ t, step s = .next t ∧ t.pc = s.pc + 2 ∧ Frame (only .pc) s t)

/-- R30, R35: the fetch depends on PC modulo 4096 only; no PC, odd or above 0xFFF, is special. -/
def Obligations.FetchWrapsModulo4096 : Prop :=
  ∀ s t : State, s.mem = t.mem → s.pc.toNat % 4096 = t.pc.toNat % 4096 → fetchWord s = fetchWord t

/-- R92: a step that raises a fault leaves every element as it was before the step, PC included, and sets FAULT. -/
def Obligations.FaultingStepIsUndone : Prop :=
  ∀ s t : State, s.faultReg = .none → step s = .next t → t.faultReg ≠ .none → t = setFault s t.faultReg

/-- R91: the codes of FAULT, and that each cause is raised by its instructions under its condition and by no other step. -/
def Obligations.EachFaultHasExactlyItsCause : Prop :=
  (FaultCause.code .none = 0 ∧ FaultCause.code .stackOverflow = 1 ∧ FaultCause.code .stackUnderflow = 2 ∧
    FaultCause.code .keyRange = 3) ∧
  (∀ s t : State, s.faultReg = .none → step s = .next t →
    (t.faultReg = .stackOverflow ↔ ∃ nnn, decodeWord (fetchWord s) = .instr (.call nnn) ∧ s.sp = 16) ∧
    (t.faultReg = .stackUnderflow ↔ decodeWord (fetchWord s) = .instr .ret ∧ s.sp = 0) ∧
    (t.faultReg = .keyRange ↔ ∃ x, (decodeWord (fetchWord s) = .instr (.skp x) ∨
      decodeWord (fetchWord s) = .instr (.sknp x)) ∧ (readV s x).toNat > 15))

/-- R93: on a faulted core a step changes nothing at all and draws nothing; ticks and key updates still have their effect, and
pixel queries and inspection answer as on the same core without the fault. -/
def Obligations.FaultedCoreStepsInPlace : Prop :=
  ∀ s : State, s.faultReg ≠ .none → step s = .next s ∧
    (tick s).dt.toNat = s.dt.toNat - 1 ∧ (tick s).st.toNat = s.st.toNat - 1 ∧
    (∀ k : Vector Bool 16, (setKeys k s).keys = k) ∧
    (∀ x y : Int, getPx s x y = getPx (setFault s .none) x y) ∧
    (∀ e : Element, e ≠ .fault → inspect s e = inspect (setFault s .none) e) ∧ inspect s .fault = s.faultReg.code

/-- R93, R94: no sequence of host operations, in any order, clears FAULT or changes anything of a faulted core but its timers
and keys. -/
def Obligations.NoRunLeavesAFault : Prop :=
  ∀ (ops : List HostOp) (s t : State), s.faultReg ≠ .none → runOps ops s = .next t →
    t.faultReg = s.faultReg ∧ Frame (fun e => e = .dt ∨ e = .st ∨ ∃ j, e = .k j) s t

/-- R45, R47, R92, R93, R109, R30: a step answers a next state from every state, and so does every run of host operations. That a
step which raises a fault (R92), and a step of a faulted core (R93), are next states of the model and no stop of it is read from
these rules (log 4, DEDUCED): R94 says that a fault stops the core, and the model says so by FAULT, which makes every later step
change nothing (FaultedCoreStepsInPlace). -/
def Obligations.EveryRunReachesAState : Prop :=
  (∀ s : State, ∃ t, step s = .next t) ∧ ∀ (ops : List HostOp) (s : State), ∃ t, runOps ops s = .next t

/-- R110: in a quiescent state, FAULTED or SELF-LOOP, any number of steps changes nothing; a core waiting in FX0A with no
key pressed stays in place too (R87). -/
def Obligations.QuiescentStatesStay : Prop :=
  (∀ (n : Nat) (s : State), Quiescent s → runOps (List.replicate n .step) s = .next s) ∧
  (∀ (n : Nat) (s : State), WaitingForKey s → runOps (List.replicate n .step) s = .next s)

/-! ### The model's invariant -/

/-- Every host operation, a step among them, keeps memory in its canonical form (the form is the model's own, log 11). -/
def Obligations.EveryOperationKeepsMemoryCanonical : Prop :=
  (∀ s t : State, Inv s → step s = .next t → Inv t) ∧
  (∀ (op : HostOp) (s t : State), Inv s → applyOp op s = .next t → Inv t)

/-- Memory is canonical at reset and after every load (the form is the model's own, log 11). -/
def Obligations.ResetAndLoadedMemoryIsCanonical : Prop :=
  Inv State.reset ∧ ∀ (prog : List Byte) (t : State), State.init prog = .ok t → Inv t

/-- In the canonical form, memories that read alike at every address are equal (the form is the model's own, log 11). -/
def Obligations.CanonicalMemoriesThatReadAlikeAreEqual : Prop :=
  ∀ m m' : Memory, memWf m = true → memWf m' = true → (∀ a, memRead m a = memRead m' a) → m = m'

/-! ### Display -/

/-- R55: 00E0 clears every pixel and changes nothing else. -/
def Obligations.ClsClearsEveryPixel : Prop :=
  decodeWord 0x00E0 = .instr .cls ∧
  ∀ s : State, ∃ t, exec .cls s = .next t ∧
    (∀ (y : Fin 32) (x : Fin 64), pixel t.display y x = false) ∧ Frame anyPixel s t

/-- R56: DXYN toggles exactly the pixels its drawn set bits cover; VF is 1 exactly when one of them was set, else 0, also with
N = 0 and with X or Y = F; nothing else changes. -/
def Obligations.DrwTogglesTheCoveredPixels : Prop :=
  ∀ (x y : Reg) (n : Fin 16),
    decodeWord (wordRR 0xD x y (BitVec.ofNat 4 n.val)) = .instr (.drw x y n) ∧
    ∀ s : State, ∃ t, exec (.drw x y n) s = .next t ∧
      (∀ (py : Fin 32) (px : Fin 64),
        (pixel t.display py px = true ↔ Xor (pixel s.display py px = true) (SpriteCovers s x y n py px))) ∧
      ((∃ py px, SpriteCovers s x y n py px ∧ pixel s.display py px = true) → readV t vf = 1) ∧
      (¬ (∃ py px, SpriteCovers s x y n py px ∧ pixel s.display py px = true) → readV t vf = 0) ∧
      Frame (fun e => e = .v vf ∨ anyPixel e) s t

/-- R56, corner cases (conflict C5): drawing the same sprite at the same place twice restores the display, and the second draw's VF
is 1 exactly when a drawn set bit fell on a pixel that was clear before the first. The coordinates are the same in both draws
(with X or Y = F the first draw's flag would move the second). -/
def Obligations.DrawingTwiceRestoresTheDisplay : Prop :=
  ∀ (x y : Reg) (n : Fin 16) (s t u : State), exec (.drw x y n) s = .next t →
    readV t x = readV s x → readV t y = readV s y → exec (.drw x y n) t = .next u →
    (∀ (py : Fin 32) (px : Fin 64), pixel u.display py px = pixel s.display py px) ∧
    (readV u vf = 1 ↔ ∃ py px, SpriteCovers s x y n py px ∧ pixel s.display py px = false)

/-! ### Control transfer -/

/-- R57: 0NNN other than 00E0 and 00EE has no effect beyond the fetch. -/
def Obligations.SysDoesNothing : Prop :=
  ∀ nnn : Imm12, (nnn ≠ 0x0E0 → nnn ≠ 0x0EE → decodeWord (wordA 0x0 nnn) = .instr (.sys nnn)) ∧
    ∀ s : State, ∃ t, exec (.sys nnn) s = .next t ∧ Frame noElement s t

/-- R58: 00EE pops the most recent return address into PC; with an empty stack the step is undone and FAULT is
STACK_UNDERFLOW. -/
def Obligations.RetPopsOrUnderflows : Prop :=
  decodeWord 0x00EE = .instr .ret ∧
  (∀ (s : State) (k : Fin 16), s.sp.val = k.val + 1 → ∃ t, exec .ret s = .next t ∧
    t.sp.val = k.val ∧ t.pc = s.stack[k] ∧ Frame (either .pc .sp) s t) ∧
  (∀ s : State, s.faultReg = .none → fetchWord s = 0x00EE → s.sp = 0 → ∃ t, step s = .next t ∧
    t.faultReg = .stackUnderflow ∧ Frame (only .fault) s t)

/-- R59: 1NNN sets PC to NNN. -/
def Obligations.JpSetsPc : Prop :=
  ∀ nnn : Imm12, decodeWord (wordA 0x1 nnn) = .instr (.jp nnn) ∧
    ∀ s : State, ∃ t, exec (.jp nnn) s = .next t ∧ t.pc.toNat = nnn.toNat ∧ Frame (only .pc) s t

/-- R60: 2NNN pushes PC, the address after the CALL, and jumps; with 16 entries in use the step is undone and FAULT is
STACK_OVERFLOW. -/
def Obligations.CallPushesOrOverflows : Prop :=
  ∀ nnn : Imm12, decodeWord (wordA 0x2 nnn) = .instr (.call nnn) ∧
    (∀ (s : State) (k : Fin 16), s.sp.val = k.val → ∃ t, exec (.call nnn) s = .next t ∧
      t.stack[k] = s.pc ∧ t.sp.val = k.val + 1 ∧ t.pc.toNat = nnn.toNat ∧
      Frame (fun e => e = .s k ∨ e = .sp ∨ e = .pc) s t) ∧
    (∀ s : State, s.faultReg = .none → fetchWord s = wordA 0x2 nnn → s.sp = 16 → ∃ t, step s = .next t ∧
      t.faultReg = .stackOverflow ∧ Frame (only .fault) s t)

/-- R58, R60: a CALL with room, followed by RET, resumes after the CALL with the stack pointer as it was; only the entry the CALL
wrote differs. -/
def Obligations.RetAfterCallReturns : Prop :=
  ∀ (nnn : Imm12) (s : State) (k : Fin 16), s.sp.val = k.val → ∃ t u, exec (.call nnn) s = .next t ∧
    exec .ret t = .next u ∧ u.pc = s.pc ∧ u.sp = s.sp ∧ Frame (only (.s k)) s u

/-- R61: BNNN sets PC to V0 + NNN, not masked to 12 bits. -/
def Obligations.JpV0AddsV0Unmasked : Prop :=
  ∀ nnn : Imm12, decodeWord (wordA 0xB nnn) = .instr (.jpV0 nnn) ∧
    ∀ s : State, ∃ t, exec (.jpV0 nnn) s = .next t ∧ t.pc.toNat = (readV s 0).toNat + nnn.toNat ∧ Frame (only .pc) s t

/-- R62, R63: 3XNN and 4XNN skip 2 more bytes when Vx equals, or does not equal, NN. -/
def Obligations.ImmediateSkipsCompareVxWithNn : Prop :=
  ∀ (x : Reg) (nn : Byte),
    decodeWord (wordRI 0x3 x nn) = .instr (.seImm x nn) ∧ decodeWord (wordRI 0x4 x nn) = .instr (.sneImm x nn) ∧
    (∀ s : State, ∃ t, exec (.seImm x nn) s = .next t ∧
      (readV s x = nn → t.pc.toNat = (s.pc.toNat + 2) % 65536) ∧ (readV s x ≠ nn → t.pc = s.pc) ∧
      Frame (only .pc) s t) ∧
    (∀ s : State, ∃ t, exec (.sneImm x nn) s = .next t ∧
      (readV s x ≠ nn → t.pc.toNat = (s.pc.toNat + 2) % 65536) ∧ (readV s x = nn → t.pc = s.pc) ∧
      Frame (only .pc) s t)

/-- R64, R65: 5XY0 and 9XY0 skip 2 more bytes when Vx equals, or does not equal, Vy; 5XYN and 9XYN with N ≠ 0 are unrecognised. -/
def Obligations.RegisterSkipsCompareVxWithVy : Prop :=
  ∀ x y : Reg,
    decodeWord (wordRR 0x5 x y 0x0) = .instr (.seReg x y) ∧ decodeWord (wordRR 0x9 x y 0x0) = .instr (.sneReg x y) ∧
    (∀ n : BitVec 4, n ≠ 0 → decodeWord (wordRR 0x5 x y n) = .reject (.unrecognized (wordRR 0x5 x y n)) ∧
      decodeWord (wordRR 0x9 x y n) = .reject (.unrecognized (wordRR 0x9 x y n))) ∧
    (∀ s : State, ∃ t, exec (.seReg x y) s = .next t ∧
      (readV s x = readV s y → t.pc.toNat = (s.pc.toNat + 2) % 65536) ∧ (readV s x ≠ readV s y → t.pc = s.pc) ∧
      Frame (only .pc) s t) ∧
    (∀ s : State, ∃ t, exec (.sneReg x y) s = .next t ∧
      (readV s x ≠ readV s y → t.pc.toNat = (s.pc.toNat + 2) % 65536) ∧ (readV s x = readV s y → t.pc = s.pc) ∧
      Frame (only .pc) s t)

/-! ### Loads, arithmetic and logic -/

/-- R66: 6XNN loads NN into Vx. -/
def Obligations.LdImmLoadsNn : Prop :=
  ∀ (x : Reg) (nn : Byte), decodeWord (wordRI 0x6 x nn) = .instr (.ldImm x nn) ∧
    ∀ s : State, ∃ t, exec (.ldImm x nn) s = .next t ∧ readV t x = nn ∧ Frame (only (.v x)) s t

/-- R67: 7XNN adds NN to Vx modulo 256 and writes no flag. -/
def Obligations.AddImmWrapsWithoutFlag : Prop :=
  ∀ (x : Reg) (nn : Byte), decodeWord (wordRI 0x7 x nn) = .instr (.addImm x nn) ∧
    ∀ s : State, ∃ t, exec (.addImm x nn) s = .next t ∧
      (readV t x).toNat = ((readV s x).toNat + nn.toNat) % 256 ∧ Frame (only (.v x)) s t

/-- R68, R69, R70, R71: 8XY0 copies, 8XY1, 8XY2 and 8XY3 are the bitwise OR, AND and XOR; none writes a flag. -/
def Obligations.CopyAndLogicWriteNoFlag : Prop :=
  ∀ x y : Reg,
    (decodeWord (wordRR 0x8 x y 0x0) = .instr (.ldReg x y) ∧ decodeWord (wordRR 0x8 x y 0x1) = .instr (.orReg x y) ∧
      decodeWord (wordRR 0x8 x y 0x2) = .instr (.andReg x y) ∧ decodeWord (wordRR 0x8 x y 0x3) = .instr (.xorReg x y)) ∧
    (∀ s : State, ∃ t, exec (.ldReg x y) s = .next t ∧ readV t x = readV s y ∧ Frame (only (.v x)) s t) ∧
    (∀ s : State, ∃ t, exec (.orReg x y) s = .next t ∧
      (∀ j, (readV t x).getLsbD j = ((readV s x).getLsbD j || (readV s y).getLsbD j)) ∧ Frame (only (.v x)) s t) ∧
    (∀ s : State, ∃ t, exec (.andReg x y) s = .next t ∧
      (∀ j, (readV t x).getLsbD j = ((readV s x).getLsbD j && (readV s y).getLsbD j)) ∧ Frame (only (.v x)) s t) ∧
    (∀ s : State, ∃ t, exec (.xorReg x y) s = .next t ∧
      (∀ j, (readV t x).getLsbD j = ((readV s x).getLsbD j ^^ (readV s y).getLsbD j)) ∧ Frame (only (.v x)) s t)

/-- R72: 8XY4 adds modulo 256 and puts the carry in VF, which wins when X = F. -/
def Obligations.AddRegSetsCarry : Prop :=
  ∀ x y : Reg, decodeWord (wordRR 0x8 x y 0x4) = .instr (.addReg x y) ∧
    ∀ s : State, ∃ t, exec (.addReg x y) s = .next t ∧
      (x ≠ vf → (readV t x).toNat = ((readV s x).toNat + (readV s y).toNat) % 256) ∧
      readV t vf = (if (readV s x).toNat + (readV s y).toNat > 255 then 1 else 0) ∧
      Frame (destAndFlag x) s t

/-- R73, R75: 8XY5 and 8XY7 subtract modulo 256, Vx − Vy and Vy − Vx; VF is 1 exactly when the minuend is strictly greater, and wins
when X = F. -/
def Obligations.SubtractionsSetStrictNoBorrow : Prop :=
  ∀ x y : Reg,
    decodeWord (wordRR 0x8 x y 0x5) = .instr (.subReg x y) ∧ decodeWord (wordRR 0x8 x y 0x7) = .instr (.subn x y) ∧
    (∀ s : State, ∃ t, exec (.subReg x y) s = .next t ∧
      (x ≠ vf → (readV t x).toNat = ((readV s x).toNat + 256 - (readV s y).toNat) % 256) ∧
      readV t vf = (if (readV s x).toNat > (readV s y).toNat then 1 else 0) ∧ Frame (destAndFlag x) s t) ∧
    (∀ s : State, ∃ t, exec (.subn x y) s = .next t ∧
      (x ≠ vf → (readV t x).toNat = ((readV s y).toNat + 256 - (readV s x).toNat) % 256) ∧
      readV t vf = (if (readV s y).toNat > (readV s x).toNat then 1 else 0) ∧ Frame (destAndFlag x) s t)

/-- R74, R76: 8XY6 and 8XYE put Vy, shifted by one, in Vx and the bit shifted out in VF, which wins when X = F. -/
def Obligations.ShiftsTakeVyAndSetTheLostBit : Prop :=
  ∀ x y : Reg,
    decodeWord (wordRR 0x8 x y 0x6) = .instr (.shr x y) ∧ decodeWord (wordRR 0x8 x y 0xE) = .instr (.shl x y) ∧
    (∀ s : State, ∃ t, exec (.shr x y) s = .next t ∧
      (x ≠ vf → (readV t x).toNat = (readV s y).toNat / 2) ∧
      (readV t vf).toNat = (readV s y).toNat % 2 ∧ Frame (destAndFlag x) s t) ∧
    (∀ s : State, ∃ t, exec (.shl x y) s = .next t ∧
      (x ≠ vf → (readV t x).toNat = (readV s y).toNat * 2 % 256) ∧
      (readV t vf).toNat = (readV s y).toNat / 128 ∧ Frame (destAndFlag x) s t)

/-- R77, R103: CXNN puts the next random byte, masked by NN, in Vx and takes exactly one byte. The byte is the free value
`Config.rand s.draws`, of which nothing is known; that it is indexed by the count `draws` is the model's choice (log 2). -/
def Obligations.RndMasksOneRandomByte : Prop :=
  ∀ (x : Reg) (nn : Byte), decodeWord (wordRI 0xC x nn) = .instr (.rnd x nn) ∧
    ∀ s : State, ∃ t, exec (.rnd x nn) s = .next t ∧ readV t x = Config.rand s.draws &&& nn ∧
      t.draws = s.draws + 1 ∧ OnlyChanges (only (.v x)) s t

/-! ### Index register and memory -/

/-- R78: ANNN sets I to NNN. -/
def Obligations.LdISetsI : Prop :=
  ∀ nnn : Imm12, decodeWord (wordA 0xA nnn) = .instr (.ldI nnn) ∧
    ∀ s : State, ∃ t, exec (.ldI nnn) s = .next t ∧ t.i.toNat = nnn.toNat ∧ Frame (only .i) s t

/-- R79: FX1E adds Vx to I modulo 2^16, without a flag and without masking to 12 bits. -/
def Obligations.AddIAddsVxModulo65536 : Prop :=
  ∀ x : Reg, decodeWord (wordRI 0xF x 0x1E) = .instr (.addI x) ∧
    ∀ s : State, ∃ t, exec (.addI x) s = .next t ∧
      t.i.toNat = (s.i.toNat + (readV s x).toNat) % 65536 ∧ Frame (only .i) s t

/-- R80: FX29 sets I to 0x050 + 5·Vx, for every value of Vx. -/
def Obligations.LdFPointsAtTheGlyph : Prop :=
  ∀ x : Reg, decodeWord (wordRI 0xF x 0x29) = .instr (.ldF x) ∧
    ∀ s : State, ∃ t, exec (.ldF x) s = .next t ∧ t.i.toNat = 0x050 + 5 * (readV s x).toNat ∧ Frame (only .i) s t

/-- R81: FX33 stores the three decimal digits of Vx at I, I + 1 and I + 2, each address modulo 4096, and changes nothing else. -/
def Obligations.LdBStoresThreeDigits : Prop :=
  ∀ x : Reg, decodeWord (wordRI 0xF x 0x33) = .instr (.ldB x) ∧
    ∀ s : State, ∃ t, exec (.ldB x) s = .next t ∧
      (memRead t.mem (indexAddr s 0)).toNat = (readV s x).toNat / 100 ∧
      (memRead t.mem (indexAddr s 1)).toNat = (readV s x).toNat / 10 % 10 ∧
      (memRead t.mem (indexAddr s 2)).toNat = (readV s x).toNat % 10 ∧
      (∀ a, (∀ k, k < 3 → a % 4096 ≠ indexAddr s k % 4096) → memRead t.mem a = memRead s.mem a) ∧
      Frame anyByte s t

/-- R82: FX55 stores V0..Vx at I, I + 1, …, each address modulo 4096, and changes nothing else. -/
def Obligations.StoreRegsStoresV0ToVx : Prop :=
  ∀ x : Reg, decodeWord (wordRI 0xF x 0x55) = .instr (.storeRegs x) ∧
    ∀ s : State, ∃ t, exec (.storeRegs x) s = .next t ∧
      (∀ k : Reg, k ≤ x → memRead t.mem (indexAddr s k.val) = readV s k) ∧
      (∀ a, (∀ k : Reg, k ≤ x → a % 4096 ≠ indexAddr s k.val % 4096) → memRead t.mem a = memRead s.mem a) ∧
      Frame anyByte s t

/-- R83: FX65 loads V0..Vx from I, I + 1, …, each address modulo 4096, and changes nothing else. -/
def Obligations.LoadRegsLoadsV0ToVx : Prop :=
  ∀ x : Reg, decodeWord (wordRI 0xF x 0x65) = .instr (.loadRegs x) ∧
    ∀ s : State, ∃ t, exec (.loadRegs x) s = .next t ∧
      (∀ k : Reg, k ≤ x → readV t k = memRead s.mem (indexAddr s k.val)) ∧ Frame (registersUpTo x) s t

/-- R82, R83: what FX55 stored, FX65 loads back, from any state with that memory and the same I. -/
def Obligations.LoadRegsRestoresWhatStoreRegsSaved : Prop :=
  ∀ (x : Reg) (s t : State), exec (.storeRegs x) s = .next t →
    ∀ r : State, r.mem = t.mem → r.i = s.i →
      ∃ u, exec (.loadRegs x) r = .next u ∧ ∀ k : Reg, k ≤ x → readV u k = readV s k

/-- R80, R83 (the source's font property): FX29 and then F465 load the five bytes of the glyph Vx, while the font region holds FONT,
whatever FONT is. -/
def Obligations.GlyphBytesAreFoundThroughI : Prop :=
  ∀ (x : Reg) (s t : State), (readV s x).toNat ≤ 15 → (∀ j, j < 80 → memRead s.mem (0x050 + j) = fontByte j) →
    exec (.ldF x) s = .next t →
      ∃ u, exec (.loadRegs 4) t = .next u ∧
        ∀ k : Reg, k ≤ 4 → readV u k = fontByte (5 * (readV s x).toNat + k.val)

/-- R39: a store into the two bytes at PC is what the next fetch reads. -/
def Obligations.NextFetchSeesTheStore : Prop :=
  ∀ (x : Reg) (s t : State), 1 ≤ x.val → s.i.toNat % 4096 = s.pc.toNat % 4096 → exec (.storeRegs x) s = .next t →
    fetchWord t = wordOfBytes (readV s 0) (readV s 1)

/-! ### Keys and timers -/

/-- R84: EX9E skips when the key Vx is pressed; with Vx above 15 the step is undone and FAULT is KEY_RANGE. -/
def Obligations.SkpSkipsOnAPressedKey : Prop :=
  ∀ x : Reg, decodeWord (wordRI 0xE x 0x9E) = .instr (.skp x) ∧
    (∀ (s : State) (k : Fin 16), (readV s x).toNat = k.val → ∃ t, exec (.skp x) s = .next t ∧
      (s.keys[k] = true → t.pc.toNat = (s.pc.toNat + 2) % 65536) ∧ (s.keys[k] = false → t.pc = s.pc) ∧
      Frame (only .pc) s t) ∧
    (∀ s : State, s.faultReg = .none → fetchWord s = wordRI 0xE x 0x9E → (readV s x).toNat > 15 →
      ∃ t, step s = .next t ∧ t.faultReg = .keyRange ∧ Frame (only .fault) s t)

/-- R85: EXA1 skips when the key Vx is not pressed; with Vx above 15 the step is undone and FAULT is KEY_RANGE. -/
def Obligations.SknpSkipsOnAReleasedKey : Prop :=
  ∀ x : Reg, decodeWord (wordRI 0xE x 0xA1) = .instr (.sknp x) ∧
    (∀ (s : State) (k : Fin 16), (readV s x).toNat = k.val → ∃ t, exec (.sknp x) s = .next t ∧
      (s.keys[k] = false → t.pc.toNat = (s.pc.toNat + 2) % 65536) ∧ (s.keys[k] = true → t.pc = s.pc) ∧
      Frame (only .pc) s t) ∧
    (∀ s : State, s.faultReg = .none → fetchWord s = wordRI 0xE x 0xA1 → (readV s x).toNat > 15 →
      ∃ t, step s = .next t ∧ t.faultReg = .keyRange ∧ Frame (only .fault) s t)

/-- R86, R88, R89: FX07, FX15 and FX18 copy DT to Vx, Vx to DT and Vx to ST, and change nothing else. -/
def Obligations.TimerCopies : Prop :=
  ∀ x : Reg,
    (decodeWord (wordRI 0xF x 0x07) = .instr (.ldVxDt x) ∧ decodeWord (wordRI 0xF x 0x15) = .instr (.ldDtVx x) ∧
      decodeWord (wordRI 0xF x 0x18) = .instr (.ldStVx x)) ∧
    (∀ s : State, ∃ t, exec (.ldVxDt x) s = .next t ∧ readV t x = s.dt ∧ Frame (only (.v x)) s t) ∧
    (∀ s : State, ∃ t, exec (.ldDtVx x) s = .next t ∧ t.dt = readV s x ∧ Frame (only .dt) s t) ∧
    (∀ s : State, ∃ t, exec (.ldStVx x) s = .next t ∧ t.st = readV s x ∧ Frame (only .st) s t)

/-- R87: FX0A puts the least pressed key in Vx; with no key pressed it only takes PC back by 2, so the whole step changes
nothing. -/
def Obligations.WaitForKeyTakesTheLeastOrRewinds : Prop :=
  ∀ x : Reg, decodeWord (wordRI 0xF x 0x0A) = .instr (.ldVxK x) ∧
    (∀ (s : State) (k : Fin 16), s.keys[k] = true → (∀ j : Fin 16, j < k → s.keys[j] = false) →
      ∃ t, exec (.ldVxK x) s = .next t ∧ (readV t x).toNat = k.val ∧ Frame (only (.v x)) s t) ∧
    (∀ s : State, (∀ j : Fin 16, s.keys[j] = false) →
      ∃ t, exec (.ldVxK x) s = .next t ∧ t.pc.toNat = (s.pc.toNat + 65536 - 2) % 65536 ∧ Frame (only .pc) s t) ∧
    (∀ s : State, s.faultReg = .none → fetchWord s = wordRI 0xF x 0x0A → (∀ j : Fin 16, s.keys[j] = false) →
      step s = .next s)

/-! ### Host operations -/

/-- R100: a tick takes one from each timer, floored at 0, on every core, faulted or not, and changes nothing else. -/
def Obligations.TickDecrementsBothTimers : Prop :=
  ∀ s : State, (tick s).dt.toNat = s.dt.toNat - 1 ∧ (tick s).st.toNat = s.st.toNat - 1 ∧
    Frame (either .dt .st) s (tick s)

/-- R101: a key update replaces all 16 entries and changes nothing else. -/
def Obligations.KeyUpdateReplacesAllKeys : Prop :=
  ∀ (k : Vector Bool 16) (s : State), (∀ j : Fin 16, (setKeys k s).keys[j] = k[j]) ∧
    Frame (fun e => ∃ j, e = .k j) s (setKeys k s)

/-- R102: the pixel query answers the pixel whose column and row are congruent to x modulo 64 and to y modulo 32, for all
integers. -/
def Obligations.PixelQueryWraps : Prop :=
  ∀ (s : State) (x y : Int) (px : Fin 64) (py : Fin 32),
    (64 : Int) ∣ x - px.val → (32 : Int) ∣ y - py.val → getPx s x y = pixel s.display py px

/-! ### Whole-machine rules -/

/-- R28, R13, R14, R16, R18 to R23, R36: whatever instruction executes, in whatever state, only the elements its row of the
"written by" column names may change. -/
def Obligations.OnlyTheNamedElementsAreWritten : Prop :=
  ∀ (i : Instr) (s t : State), exec i s = .next t → OnlyChanges (Writes i) s t

/-- R13: VF changes only by 8XY4, 8XY5, 8XY6, 8XY7, 8XYE and DXYN as a flag, or as the named destination of another
instruction; a flag is 0 or 1. -/
def Obligations.FlagRegisterWriters : Prop :=
  ∀ (i : Instr) (s t : State), exec i s = .next t →
    (readV t vf ≠ readV s vf →
      (∃ x y, i = .addReg x y ∨ i = .subReg x y ∨ i = .shr x y ∨ i = .subn x y ∨ i = .shl x y) ∨
      (∃ x y n, i = .drw x y n) ∨
      (∃ nn, i = .ldImm vf nn ∨ i = .addImm vf nn ∨ i = .rnd vf nn) ∨
      (∃ y, i = .ldReg vf y ∨ i = .orReg vf y ∨ i = .andReg vf y ∨ i = .xorReg vf y) ∨
      i = .ldVxDt vf ∨ i = .ldVxK vf ∨ i = .loadRegs vf) ∧
    ((∃ x y, i = .addReg x y ∨ i = .subReg x y ∨ i = .shr x y ∨ i = .subn x y ∨ i = .shl x y) ∨
      (∃ x y n, i = .drw x y n) → readV t vf = 0 ∨ readV t vf = 1)

/-- R103: no step takes a random byte but one that executes CXNN on a core that has not faulted, which takes one (the count is the
model's own, log 2). -/
def Obligations.OnlyRndDraws : Prop :=
  ∀ s t : State, step s = .next t →
    ((s.faultReg = .none ∧ ∃ x nn, decodeWord (fetchWord s) = .instr (.rnd x nn)) → t.draws = s.draws + 1) ∧
    (¬ (s.faultReg = .none ∧ ∃ x nn, decodeWord (fetchWord s) = .instr (.rnd x nn)) → t.draws = s.draws)

/-- R19: no instruction reads ST: two states that differ in ST alone, supplied with the same random byte, take steps to states that
differ in ST at most. For CXNN (R77, R103) this rests on the model's choice that equal counts of bytes taken give both steps the same
byte (log 2, DESIGN CHOICE). -/
def Obligations.StepsDoNotDependOnTheSoundTimer : Prop :=
  ∀ (s t : State) (b : Byte), step s = .next t → ∃ t', step (setSt s b) = .next t' ∧ Frame (only .st) t t'

/-- R16: no instruction reads an entry at or above SP: two states that differ in such entries alone, supplied with the same random
byte, take steps to states that differ at most in entries at or above the new SP. For CXNN (R77, R103) this rests on the model's
choice that equal counts of bytes taken give both steps the same byte (log 2, DESIGN CHOICE). -/
def Obligations.StepsDoNotDependOnPoppedEntries : Prop :=
  ∀ (s t : State) (entries : Vector Word 16), (∀ k : Fin 16, k.val < s.sp.val → entries[k] = s.stack[k]) →
    step s = .next t → ∃ t', step (setStack s entries) = .next t' ∧ t'.sp = t.sp ∧
      Frame (fun e => ∃ k : Fin 16, t.sp.val ≤ k.val ∧ e = .s k) t t'
end

