-- ==== Sys2Proof/Laws/Decode.lean ====
section
/-! SUPPORT. The fields of a word in each format (spec 30_encoding.md R42, R44). -/

namespace Sys2Proof

/-- A field cut out of a concatenation lies in its low part or in its high part. -/
theorem extract_append_low {n m : Nat} (a : BitVec n) (b : BitVec m) (start len : Nat) (h : start + len ≤ m) :
    (a ++ b).extractLsb' start len = b.extractLsb' start len := by
  ext i hi
  simp only [BitVec.getElem_extractLsb', BitVec.getLsbD_append]
  simp [show start + i < m by omega]

theorem extract_append_high {n m : Nat} (a : BitVec n) (b : BitVec m) (start len : Nat) (h : m ≤ start) :
    (a ++ b).extractLsb' start len = a.extractLsb' (start - m) len := by
  ext i hi
  simp only [BitVec.getElem_extractLsb', BitVec.getLsbD_append]
  simp [show ¬ start + i < m by omega, show start + i - m = start - m + i by omega]

theorem extract_all {n : Nat} (a : BitVec n) : a.extractLsb' 0 n = a := by
  ext i hi; simp

theorem reg_ofNat_toNat (x : Fin 16) : (BitVec.ofNat 4 x.val).toNat = x.val := by
  simp

/-! ### Format A -/

@[simp] theorem fieldFamily_wordA (f : BitVec 4) (nnn : Imm12) : (fieldFamily (wordA f nnn)).val = f.toNat := by
  simp only [fieldFamily, wordA]
  rw [extract_append_high _ _ _ _ (by decide), extract_all]

@[simp] theorem fieldNNN_wordA (f : BitVec 4) (nnn : Imm12) : fieldNNN (wordA f nnn) = nnn := by
  simp only [fieldNNN, wordA]
  rw [extract_append_low _ _ _ _ (by decide), extract_all]

/-! ### Formats RI and R -/

@[simp] theorem fieldFamily_wordRI (f : BitVec 4) (x : Reg) (nn : Byte) :
    (fieldFamily (wordRI f x nn)).val = f.toNat := by
  simp only [fieldFamily, wordRI]
  rw [extract_append_high _ _ _ _ (by decide), extract_append_high _ _ _ _ (by decide), extract_all]

@[simp] theorem fieldX_wordRI (f : BitVec 4) (x : Reg) (nn : Byte) : fieldX (wordRI f x nn) = x := by
  apply Fin.ext
  simp only [fieldX, wordRI]
  rw [extract_append_high _ _ _ _ (by decide), extract_append_low _ _ _ _ (by decide), extract_all, reg_ofNat_toNat]

@[simp] theorem fieldNN_wordRI (f : BitVec 4) (x : Reg) (nn : Byte) : fieldNN (wordRI f x nn) = nn := by
  simp only [fieldNN, wordRI]
  rw [extract_append_low _ _ _ _ (by decide), extract_all]

/-! ### Formats RR and RRN -/

@[simp] theorem fieldFamily_wordRR (f : BitVec 4) (x y : Reg) (n : BitVec 4) :
    (fieldFamily (wordRR f x y n)).val = f.toNat := by
  simp only [fieldFamily, wordRR]
  rw [extract_append_high _ _ _ _ (by decide), extract_append_high _ _ _ _ (by decide),
    extract_append_high _ _ _ _ (by decide), extract_all]

@[simp] theorem fieldX_wordRR (f : BitVec 4) (x y : Reg) (n : BitVec 4) : fieldX (wordRR f x y n) = x := by
  apply Fin.ext
  simp only [fieldX, wordRR]
  rw [extract_append_high _ _ _ _ (by decide), extract_append_high _ _ _ _ (by decide),
    extract_append_low _ _ _ _ (by decide), extract_all, reg_ofNat_toNat]

@[simp] theorem fieldY_wordRR (f : BitVec 4) (x y : Reg) (n : BitVec 4) : fieldY (wordRR f x y n) = y := by
  apply Fin.ext
  simp only [fieldY, wordRR]
  rw [extract_append_high _ _ _ _ (by decide), extract_append_low _ _ _ _ (by decide), extract_all, reg_ofNat_toNat]

@[simp] theorem fieldN_wordRR (f : BitVec 4) (x y : Reg) (n : BitVec 4) : (fieldN (wordRR f x y n)).val = n.toNat := by
  simp only [fieldN, wordRR]
  rw [extract_append_low _ _ _ _ (by decide), extract_all]

/-! ### A word and its fields, the other way -/

/-- A word is its family nibble and NNN, in format A (R42, R44). -/
theorem wordA_fields (w : Word) : wordA (w.extractLsb' 12 4) (fieldNNN w) = w := by
  unfold wordA fieldNNN
  ext i hi
  rw [BitVec.getElem_append]
  split
  · simp [BitVec.getLsbD_eq_getElem hi]
  · simp only [BitVec.getElem_extractLsb', BitVec.getLsbD_eq_getElem hi,
      show 12 + (i - 12) = i by omega]

theorem ofNat_fieldX (w : Word) : BitVec.ofNat 4 (fieldX w).val = w.extractLsb' 8 4 := by
  rw [fieldX, BitVec.ofNat_toNat, BitVec.setWidth_eq]

theorem ofNat_fieldY (w : Word) : BitVec.ofNat 4 (fieldY w).val = w.extractLsb' 4 4 := by
  rw [fieldY, BitVec.ofNat_toNat, BitVec.setWidth_eq]

/-- A word is its family nibble, X and NN, in format RI (R42, R44). -/
theorem wordRI_fields (w : Word) : wordRI (w.extractLsb' 12 4) (fieldX w) (fieldNN w) = w := by
  rw [wordRI, ofNat_fieldX, fieldNN]
  ext i hi
  simp only [BitVec.getElem_append, BitVec.getElem_extractLsb']
  split
  · simp [BitVec.getLsbD_eq_getElem hi]
  · split
    · simp only [show 8 + (i - 8) = i by omega, BitVec.getLsbD_eq_getElem hi]
    · simp only [show 12 + (i - 8 - 4) = i by omega, BitVec.getLsbD_eq_getElem hi]

/-- A word is its family nibble, X, Y and N, in format RRN (R42, R44). -/
theorem wordRR_fields (w : Word) :
    wordRR (w.extractLsb' 12 4) (fieldX w) (fieldY w) (w.extractLsb' 0 4) = w := by
  rw [wordRR, ofNat_fieldX, ofNat_fieldY]
  ext i hi
  simp only [BitVec.getElem_append, BitVec.getElem_extractLsb']
  split
  · simp [BitVec.getLsbD_eq_getElem hi]
  · split
    · simp only [show 4 + (i - 4) = i by omega, BitVec.getLsbD_eq_getElem hi]
    · split
      · simp only [show 8 + (i - 4 - 4) = i by omega, BitVec.getLsbD_eq_getElem hi]
      · simp only [show 12 + (i - 4 - 4 - 4) = i by omega, BitVec.getLsbD_eq_getElem hi]

/-! ### The row a family selects (R46) -/

theorem decodeWord_family0 {w : Word} (h : (fieldFamily w).val = 0) :
    decodeWord w = .instr (decodeFamily0 w) := by
  rw [decodeWord, show fieldFamily w = 0 from Fin.ext h]; rfl

theorem decodeWord_family1 {w : Word} (h : (fieldFamily w).val = 1) :
    decodeWord w = .instr (.jp (fieldNNN w)) := by
  rw [decodeWord, show fieldFamily w = 1 from Fin.ext h]; rfl

theorem decodeWord_family2 {w : Word} (h : (fieldFamily w).val = 2) :
    decodeWord w = .instr (.call (fieldNNN w)) := by
  rw [decodeWord, show fieldFamily w = 2 from Fin.ext h]; rfl

theorem decodeWord_family3 {w : Word} (h : (fieldFamily w).val = 3) :
    decodeWord w = .instr (.seImm (fieldX w) (fieldNN w)) := by
  rw [decodeWord, show fieldFamily w = 3 from Fin.ext h]; rfl

theorem decodeWord_family4 {w : Word} (h : (fieldFamily w).val = 4) :
    decodeWord w = .instr (.sneImm (fieldX w) (fieldNN w)) := by
  rw [decodeWord, show fieldFamily w = 4 from Fin.ext h]; rfl

theorem decodeWord_family5 {w : Word} (h : (fieldFamily w).val = 5) :
    decodeWord w = if fieldN w = 0 then .instr (.seReg (fieldX w) (fieldY w)) else .reject (.unrecognized w) := by
  rw [decodeWord, show fieldFamily w = 5 from Fin.ext h]; rfl

theorem decodeWord_family6 {w : Word} (h : (fieldFamily w).val = 6) :
    decodeWord w = .instr (.ldImm (fieldX w) (fieldNN w)) := by
  rw [decodeWord, show fieldFamily w = 6 from Fin.ext h]; rfl

theorem decodeWord_family7 {w : Word} (h : (fieldFamily w).val = 7) :
    decodeWord w = .instr (.addImm (fieldX w) (fieldNN w)) := by
  rw [decodeWord, show fieldFamily w = 7 from Fin.ext h]; rfl

theorem decodeWord_family8 {w : Word} (h : (fieldFamily w).val = 8) :
    decodeWord w = decodeFamily8 w := by
  rw [decodeWord, show fieldFamily w = 8 from Fin.ext h]; rfl

theorem decodeWord_family9 {w : Word} (h : (fieldFamily w).val = 9) :
    decodeWord w = if fieldN w = 0 then .instr (.sneReg (fieldX w) (fieldY w)) else .reject (.unrecognized w) := by
  rw [decodeWord, show fieldFamily w = 9 from Fin.ext h]; rfl

theorem decodeWord_familyA {w : Word} (h : (fieldFamily w).val = 10) :
    decodeWord w = .instr (.ldI (fieldNNN w)) := by
  rw [decodeWord, show fieldFamily w = 10 from Fin.ext h]; rfl

theorem decodeWord_familyB {w : Word} (h : (fieldFamily w).val = 11) :
    decodeWord w = .instr (.jpV0 (fieldNNN w)) := by
  rw [decodeWord, show fieldFamily w = 11 from Fin.ext h]; rfl

theorem decodeWord_familyC {w : Word} (h : (fieldFamily w).val = 12) :
    decodeWord w = .instr (.rnd (fieldX w) (fieldNN w)) := by
  rw [decodeWord, show fieldFamily w = 12 from Fin.ext h]; rfl

theorem decodeWord_familyD {w : Word} (h : (fieldFamily w).val = 13) :
    decodeWord w = .instr (.drw (fieldX w) (fieldY w) (fieldN w)) := by
  rw [decodeWord, show fieldFamily w = 13 from Fin.ext h]; rfl

theorem decodeWord_familyE {w : Word} (h : (fieldFamily w).val = 14) :
    decodeWord w = decodeFamilyE w := by
  rw [decodeWord, show fieldFamily w = 14 from Fin.ext h]; rfl

theorem decodeWord_familyF {w : Word} (h : (fieldFamily w).val = 15) :
    decodeWord w = decodeFamilyF w := by
  rw [decodeWord, show fieldFamily w = 15 from Fin.ext h]; rfl

/-! ### Bytes -/

/-- The two bytes of a word, put together again, are the word (R34, R54). -/
@[simp] theorem wordOfBytes_bytes (w : Word) : wordOfBytes (w.extractLsb' 8 8) (w.extractLsb' 0 8) = w := by
  unfold wordOfBytes
  ext i hi
  simp only [BitVec.getElem_append, BitVec.getElem_extractLsb']
  split
  · simp [BitVec.getLsbD_eq_getElem hi]
  · simp only [show 8 + (i - 8) = i by omega, BitVec.getLsbD_eq_getElem hi]

/-- The decoder on bytes is the decoder on the word they make (R41). -/
@[simp] theorem decodeBytes_bytesOfWord (w : Word) : decodeBytes (bytesOfWord w) = decodeWord w := by
  simp [decodeBytes, bytesOfWord]

end Sys2Proof
end

