-- ==== Sys2Proof/Laws/State.lean ====
section
/-! SUPPORT. One lemma per field and per update of State, and reading a register after an update. -/

namespace Sys2Proof.Machine

/-! ### writeV -/

@[simp] theorem writeV_v (s : State) (x : Reg) (b : Byte) : (writeV s x b).v = s.v.set x b := rfl
@[simp] theorem writeV_i (s : State) (x : Reg) (b : Byte) : (writeV s x b).i = s.i := rfl
@[simp] theorem writeV_pc (s : State) (x : Reg) (b : Byte) : (writeV s x b).pc = s.pc := rfl
@[simp] theorem writeV_sp (s : State) (x : Reg) (b : Byte) : (writeV s x b).sp = s.sp := rfl
@[simp] theorem writeV_stack (s : State) (x : Reg) (b : Byte) : (writeV s x b).stack = s.stack := rfl
@[simp] theorem writeV_dt (s : State) (x : Reg) (b : Byte) : (writeV s x b).dt = s.dt := rfl
@[simp] theorem writeV_st (s : State) (x : Reg) (b : Byte) : (writeV s x b).st = s.st := rfl
@[simp] theorem writeV_keys (s : State) (x : Reg) (b : Byte) : (writeV s x b).keys = s.keys := rfl
@[simp] theorem writeV_display (s : State) (x : Reg) (b : Byte) : (writeV s x b).display = s.display := rfl
@[simp] theorem writeV_mem (s : State) (x : Reg) (b : Byte) : (writeV s x b).mem = s.mem := rfl
@[simp] theorem writeV_faultReg (s : State) (x : Reg) (b : Byte) : (writeV s x b).faultReg = s.faultReg := rfl
@[simp] theorem writeV_draws (s : State) (x : Reg) (b : Byte) : (writeV s x b).draws = s.draws := rfl

/-! ### setI -/

@[simp] theorem setI_v (s : State) (w : Word) : (setI s w).v = s.v := rfl
@[simp] theorem setI_i (s : State) (w : Word) : (setI s w).i = w := rfl
@[simp] theorem setI_pc (s : State) (w : Word) : (setI s w).pc = s.pc := rfl
@[simp] theorem setI_sp (s : State) (w : Word) : (setI s w).sp = s.sp := rfl
@[simp] theorem setI_stack (s : State) (w : Word) : (setI s w).stack = s.stack := rfl
@[simp] theorem setI_dt (s : State) (w : Word) : (setI s w).dt = s.dt := rfl
@[simp] theorem setI_st (s : State) (w : Word) : (setI s w).st = s.st := rfl
@[simp] theorem setI_keys (s : State) (w : Word) : (setI s w).keys = s.keys := rfl
@[simp] theorem setI_display (s : State) (w : Word) : (setI s w).display = s.display := rfl
@[simp] theorem setI_mem (s : State) (w : Word) : (setI s w).mem = s.mem := rfl
@[simp] theorem setI_faultReg (s : State) (w : Word) : (setI s w).faultReg = s.faultReg := rfl
@[simp] theorem setI_draws (s : State) (w : Word) : (setI s w).draws = s.draws := rfl
@[simp] theorem setI_readV (s : State) (w : Word) (r : Reg) : readV (setI s w) r = readV s r := rfl

/-! ### setPc -/

@[simp] theorem setPc_v (s : State) (w : Word) : (setPc s w).v = s.v := rfl
@[simp] theorem setPc_i (s : State) (w : Word) : (setPc s w).i = s.i := rfl
@[simp] theorem setPc_pc (s : State) (w : Word) : (setPc s w).pc = w := rfl
@[simp] theorem setPc_sp (s : State) (w : Word) : (setPc s w).sp = s.sp := rfl
@[simp] theorem setPc_stack (s : State) (w : Word) : (setPc s w).stack = s.stack := rfl
@[simp] theorem setPc_dt (s : State) (w : Word) : (setPc s w).dt = s.dt := rfl
@[simp] theorem setPc_st (s : State) (w : Word) : (setPc s w).st = s.st := rfl
@[simp] theorem setPc_keys (s : State) (w : Word) : (setPc s w).keys = s.keys := rfl
@[simp] theorem setPc_display (s : State) (w : Word) : (setPc s w).display = s.display := rfl
@[simp] theorem setPc_mem (s : State) (w : Word) : (setPc s w).mem = s.mem := rfl
@[simp] theorem setPc_faultReg (s : State) (w : Word) : (setPc s w).faultReg = s.faultReg := rfl
@[simp] theorem setPc_draws (s : State) (w : Word) : (setPc s w).draws = s.draws := rfl
@[simp] theorem setPc_readV (s : State) (w : Word) (r : Reg) : readV (setPc s w) r = readV s r := rfl

/-! ### setDt -/

@[simp] theorem setDt_v (s : State) (b : Byte) : (setDt s b).v = s.v := rfl
@[simp] theorem setDt_i (s : State) (b : Byte) : (setDt s b).i = s.i := rfl
@[simp] theorem setDt_pc (s : State) (b : Byte) : (setDt s b).pc = s.pc := rfl
@[simp] theorem setDt_sp (s : State) (b : Byte) : (setDt s b).sp = s.sp := rfl
@[simp] theorem setDt_stack (s : State) (b : Byte) : (setDt s b).stack = s.stack := rfl
@[simp] theorem setDt_dt (s : State) (b : Byte) : (setDt s b).dt = b := rfl
@[simp] theorem setDt_st (s : State) (b : Byte) : (setDt s b).st = s.st := rfl
@[simp] theorem setDt_keys (s : State) (b : Byte) : (setDt s b).keys = s.keys := rfl
@[simp] theorem setDt_display (s : State) (b : Byte) : (setDt s b).display = s.display := rfl
@[simp] theorem setDt_mem (s : State) (b : Byte) : (setDt s b).mem = s.mem := rfl
@[simp] theorem setDt_faultReg (s : State) (b : Byte) : (setDt s b).faultReg = s.faultReg := rfl
@[simp] theorem setDt_draws (s : State) (b : Byte) : (setDt s b).draws = s.draws := rfl
@[simp] theorem setDt_readV (s : State) (b : Byte) (r : Reg) : readV (setDt s b) r = readV s r := rfl

/-! ### setSt -/

@[simp] theorem setSt_v (s : State) (b : Byte) : (setSt s b).v = s.v := rfl
@[simp] theorem setSt_i (s : State) (b : Byte) : (setSt s b).i = s.i := rfl
@[simp] theorem setSt_pc (s : State) (b : Byte) : (setSt s b).pc = s.pc := rfl
@[simp] theorem setSt_sp (s : State) (b : Byte) : (setSt s b).sp = s.sp := rfl
@[simp] theorem setSt_stack (s : State) (b : Byte) : (setSt s b).stack = s.stack := rfl
@[simp] theorem setSt_dt (s : State) (b : Byte) : (setSt s b).dt = s.dt := rfl
@[simp] theorem setSt_st (s : State) (b : Byte) : (setSt s b).st = b := rfl
@[simp] theorem setSt_keys (s : State) (b : Byte) : (setSt s b).keys = s.keys := rfl
@[simp] theorem setSt_display (s : State) (b : Byte) : (setSt s b).display = s.display := rfl
@[simp] theorem setSt_mem (s : State) (b : Byte) : (setSt s b).mem = s.mem := rfl
@[simp] theorem setSt_faultReg (s : State) (b : Byte) : (setSt s b).faultReg = s.faultReg := rfl
@[simp] theorem setSt_draws (s : State) (b : Byte) : (setSt s b).draws = s.draws := rfl
@[simp] theorem setSt_readV (s : State) (b : Byte) (r : Reg) : readV (setSt s b) r = readV s r := rfl

/-! ### setMem -/

@[simp] theorem setMem_v (s : State) (m : Memory) : (setMem s m).v = s.v := rfl
@[simp] theorem setMem_i (s : State) (m : Memory) : (setMem s m).i = s.i := rfl
@[simp] theorem setMem_pc (s : State) (m : Memory) : (setMem s m).pc = s.pc := rfl
@[simp] theorem setMem_sp (s : State) (m : Memory) : (setMem s m).sp = s.sp := rfl
@[simp] theorem setMem_stack (s : State) (m : Memory) : (setMem s m).stack = s.stack := rfl
@[simp] theorem setMem_dt (s : State) (m : Memory) : (setMem s m).dt = s.dt := rfl
@[simp] theorem setMem_st (s : State) (m : Memory) : (setMem s m).st = s.st := rfl
@[simp] theorem setMem_keys (s : State) (m : Memory) : (setMem s m).keys = s.keys := rfl
@[simp] theorem setMem_display (s : State) (m : Memory) : (setMem s m).display = s.display := rfl
@[simp] theorem setMem_mem (s : State) (m : Memory) : (setMem s m).mem = m := rfl
@[simp] theorem setMem_faultReg (s : State) (m : Memory) : (setMem s m).faultReg = s.faultReg := rfl
@[simp] theorem setMem_draws (s : State) (m : Memory) : (setMem s m).draws = s.draws := rfl
@[simp] theorem setMem_readV (s : State) (m : Memory) (r : Reg) : readV (setMem s m) r = readV s r := rfl

/-! ### setDisplay -/

@[simp] theorem setDisplay_v (s : State) (d : Display) : (setDisplay s d).v = s.v := rfl
@[simp] theorem setDisplay_i (s : State) (d : Display) : (setDisplay s d).i = s.i := rfl
@[simp] theorem setDisplay_pc (s : State) (d : Display) : (setDisplay s d).pc = s.pc := rfl
@[simp] theorem setDisplay_sp (s : State) (d : Display) : (setDisplay s d).sp = s.sp := rfl
@[simp] theorem setDisplay_stack (s : State) (d : Display) : (setDisplay s d).stack = s.stack := rfl
@[simp] theorem setDisplay_dt (s : State) (d : Display) : (setDisplay s d).dt = s.dt := rfl
@[simp] theorem setDisplay_st (s : State) (d : Display) : (setDisplay s d).st = s.st := rfl
@[simp] theorem setDisplay_keys (s : State) (d : Display) : (setDisplay s d).keys = s.keys := rfl
@[simp] theorem setDisplay_display (s : State) (d : Display) : (setDisplay s d).display = d := rfl
@[simp] theorem setDisplay_mem (s : State) (d : Display) : (setDisplay s d).mem = s.mem := rfl
@[simp] theorem setDisplay_faultReg (s : State) (d : Display) : (setDisplay s d).faultReg = s.faultReg := rfl
@[simp] theorem setDisplay_draws (s : State) (d : Display) : (setDisplay s d).draws = s.draws := rfl
@[simp] theorem setDisplay_readV (s : State) (d : Display) (r : Reg) : readV (setDisplay s d) r = readV s r := rfl

/-! ### replaceKeys -/

@[simp] theorem replaceKeys_v (s : State) (k : Vector Bool 16) : (replaceKeys s k).v = s.v := rfl
@[simp] theorem replaceKeys_i (s : State) (k : Vector Bool 16) : (replaceKeys s k).i = s.i := rfl
@[simp] theorem replaceKeys_pc (s : State) (k : Vector Bool 16) : (replaceKeys s k).pc = s.pc := rfl
@[simp] theorem replaceKeys_sp (s : State) (k : Vector Bool 16) : (replaceKeys s k).sp = s.sp := rfl
@[simp] theorem replaceKeys_stack (s : State) (k : Vector Bool 16) : (replaceKeys s k).stack = s.stack := rfl
@[simp] theorem replaceKeys_dt (s : State) (k : Vector Bool 16) : (replaceKeys s k).dt = s.dt := rfl
@[simp] theorem replaceKeys_st (s : State) (k : Vector Bool 16) : (replaceKeys s k).st = s.st := rfl
@[simp] theorem replaceKeys_keys (s : State) (k : Vector Bool 16) : (replaceKeys s k).keys = k := rfl
@[simp] theorem replaceKeys_display (s : State) (k : Vector Bool 16) : (replaceKeys s k).display = s.display := rfl
@[simp] theorem replaceKeys_mem (s : State) (k : Vector Bool 16) : (replaceKeys s k).mem = s.mem := rfl
@[simp] theorem replaceKeys_faultReg (s : State) (k : Vector Bool 16) : (replaceKeys s k).faultReg = s.faultReg := rfl
@[simp] theorem replaceKeys_draws (s : State) (k : Vector Bool 16) : (replaceKeys s k).draws = s.draws := rfl
@[simp] theorem replaceKeys_readV (s : State) (k : Vector Bool 16) (r : Reg) : readV (replaceKeys s k) r = readV s r := rfl

/-! ### setFault -/

@[simp] theorem setFault_v (s : State) (c : FaultCause) : (setFault s c).v = s.v := rfl
@[simp] theorem setFault_i (s : State) (c : FaultCause) : (setFault s c).i = s.i := rfl
@[simp] theorem setFault_pc (s : State) (c : FaultCause) : (setFault s c).pc = s.pc := rfl
@[simp] theorem setFault_sp (s : State) (c : FaultCause) : (setFault s c).sp = s.sp := rfl
@[simp] theorem setFault_stack (s : State) (c : FaultCause) : (setFault s c).stack = s.stack := rfl
@[simp] theorem setFault_dt (s : State) (c : FaultCause) : (setFault s c).dt = s.dt := rfl
@[simp] theorem setFault_st (s : State) (c : FaultCause) : (setFault s c).st = s.st := rfl
@[simp] theorem setFault_keys (s : State) (c : FaultCause) : (setFault s c).keys = s.keys := rfl
@[simp] theorem setFault_display (s : State) (c : FaultCause) : (setFault s c).display = s.display := rfl
@[simp] theorem setFault_mem (s : State) (c : FaultCause) : (setFault s c).mem = s.mem := rfl
@[simp] theorem setFault_faultReg (s : State) (c : FaultCause) : (setFault s c).faultReg = c := rfl
@[simp] theorem setFault_draws (s : State) (c : FaultCause) : (setFault s c).draws = s.draws := rfl
@[simp] theorem setFault_readV (s : State) (c : FaultCause) (r : Reg) : readV (setFault s c) r = readV s r := rfl

/-! ### setRegs -/

@[simp] theorem setRegs_v (s : State) (v : Vector Byte 16) : (setRegs s v).v = v := rfl
@[simp] theorem setRegs_i (s : State) (v : Vector Byte 16) : (setRegs s v).i = s.i := rfl
@[simp] theorem setRegs_pc (s : State) (v : Vector Byte 16) : (setRegs s v).pc = s.pc := rfl
@[simp] theorem setRegs_sp (s : State) (v : Vector Byte 16) : (setRegs s v).sp = s.sp := rfl
@[simp] theorem setRegs_stack (s : State) (v : Vector Byte 16) : (setRegs s v).stack = s.stack := rfl
@[simp] theorem setRegs_dt (s : State) (v : Vector Byte 16) : (setRegs s v).dt = s.dt := rfl
@[simp] theorem setRegs_st (s : State) (v : Vector Byte 16) : (setRegs s v).st = s.st := rfl
@[simp] theorem setRegs_keys (s : State) (v : Vector Byte 16) : (setRegs s v).keys = s.keys := rfl
@[simp] theorem setRegs_display (s : State) (v : Vector Byte 16) : (setRegs s v).display = s.display := rfl
@[simp] theorem setRegs_mem (s : State) (v : Vector Byte 16) : (setRegs s v).mem = s.mem := rfl
@[simp] theorem setRegs_faultReg (s : State) (v : Vector Byte 16) : (setRegs s v).faultReg = s.faultReg := rfl
@[simp] theorem setRegs_draws (s : State) (v : Vector Byte 16) : (setRegs s v).draws = s.draws := rfl
@[simp] theorem setRegs_readV (s : State) (v : Vector Byte 16) (r : Reg) : readV (setRegs s v) r = v[r] := rfl

/-! ### setSp -/

@[simp] theorem setSp_v (s : State) (n : Fin 17) : (setSp s n).v = s.v := rfl
@[simp] theorem setSp_i (s : State) (n : Fin 17) : (setSp s n).i = s.i := rfl
@[simp] theorem setSp_pc (s : State) (n : Fin 17) : (setSp s n).pc = s.pc := rfl
@[simp] theorem setSp_sp (s : State) (n : Fin 17) : (setSp s n).sp = n := rfl
@[simp] theorem setSp_stack (s : State) (n : Fin 17) : (setSp s n).stack = s.stack := rfl
@[simp] theorem setSp_dt (s : State) (n : Fin 17) : (setSp s n).dt = s.dt := rfl
@[simp] theorem setSp_st (s : State) (n : Fin 17) : (setSp s n).st = s.st := rfl
@[simp] theorem setSp_keys (s : State) (n : Fin 17) : (setSp s n).keys = s.keys := rfl
@[simp] theorem setSp_display (s : State) (n : Fin 17) : (setSp s n).display = s.display := rfl
@[simp] theorem setSp_mem (s : State) (n : Fin 17) : (setSp s n).mem = s.mem := rfl
@[simp] theorem setSp_faultReg (s : State) (n : Fin 17) : (setSp s n).faultReg = s.faultReg := rfl
@[simp] theorem setSp_draws (s : State) (n : Fin 17) : (setSp s n).draws = s.draws := rfl
@[simp] theorem setSp_readV (s : State) (n : Fin 17) (r : Reg) : readV (setSp s n) r = readV s r := rfl

/-! ### setStack -/

@[simp] theorem setStack_v (s : State) (es : Vector Word 16) : (setStack s es).v = s.v := rfl
@[simp] theorem setStack_i (s : State) (es : Vector Word 16) : (setStack s es).i = s.i := rfl
@[simp] theorem setStack_pc (s : State) (es : Vector Word 16) : (setStack s es).pc = s.pc := rfl
@[simp] theorem setStack_sp (s : State) (es : Vector Word 16) : (setStack s es).sp = s.sp := rfl
@[simp] theorem setStack_stack (s : State) (es : Vector Word 16) : (setStack s es).stack = es := rfl
@[simp] theorem setStack_dt (s : State) (es : Vector Word 16) : (setStack s es).dt = s.dt := rfl
@[simp] theorem setStack_st (s : State) (es : Vector Word 16) : (setStack s es).st = s.st := rfl
@[simp] theorem setStack_keys (s : State) (es : Vector Word 16) : (setStack s es).keys = s.keys := rfl
@[simp] theorem setStack_display (s : State) (es : Vector Word 16) : (setStack s es).display = s.display := rfl
@[simp] theorem setStack_mem (s : State) (es : Vector Word 16) : (setStack s es).mem = s.mem := rfl
@[simp] theorem setStack_faultReg (s : State) (es : Vector Word 16) : (setStack s es).faultReg = s.faultReg := rfl
@[simp] theorem setStack_draws (s : State) (es : Vector Word 16) : (setStack s es).draws = s.draws := rfl
@[simp] theorem setStack_readV (s : State) (es : Vector Word 16) (r : Reg) : readV (setStack s es) r = readV s r := rfl

/-! ### advancePc -/

@[simp] theorem advancePc_v (s : State) : (advancePc s).v = s.v := rfl
@[simp] theorem advancePc_i (s : State) : (advancePc s).i = s.i := rfl
@[simp] theorem advancePc_pc (s : State) : (advancePc s).pc = s.pc + 2 := rfl
@[simp] theorem advancePc_sp (s : State) : (advancePc s).sp = s.sp := rfl
@[simp] theorem advancePc_stack (s : State) : (advancePc s).stack = s.stack := rfl
@[simp] theorem advancePc_dt (s : State) : (advancePc s).dt = s.dt := rfl
@[simp] theorem advancePc_st (s : State) : (advancePc s).st = s.st := rfl
@[simp] theorem advancePc_keys (s : State) : (advancePc s).keys = s.keys := rfl
@[simp] theorem advancePc_display (s : State) : (advancePc s).display = s.display := rfl
@[simp] theorem advancePc_mem (s : State) : (advancePc s).mem = s.mem := rfl
@[simp] theorem advancePc_faultReg (s : State) : (advancePc s).faultReg = s.faultReg := rfl
@[simp] theorem advancePc_draws (s : State) : (advancePc s).draws = s.draws := rfl
@[simp] theorem advancePc_readV (s : State) (r : Reg) : readV (advancePc s) r = readV s r := rfl

/-! ### rewindPc -/

@[simp] theorem rewindPc_v (s : State) : (rewindPc s).v = s.v := rfl
@[simp] theorem rewindPc_i (s : State) : (rewindPc s).i = s.i := rfl
@[simp] theorem rewindPc_pc (s : State) : (rewindPc s).pc = s.pc - 2 := rfl
@[simp] theorem rewindPc_sp (s : State) : (rewindPc s).sp = s.sp := rfl
@[simp] theorem rewindPc_stack (s : State) : (rewindPc s).stack = s.stack := rfl
@[simp] theorem rewindPc_dt (s : State) : (rewindPc s).dt = s.dt := rfl
@[simp] theorem rewindPc_st (s : State) : (rewindPc s).st = s.st := rfl
@[simp] theorem rewindPc_keys (s : State) : (rewindPc s).keys = s.keys := rfl
@[simp] theorem rewindPc_display (s : State) : (rewindPc s).display = s.display := rfl
@[simp] theorem rewindPc_mem (s : State) : (rewindPc s).mem = s.mem := rfl
@[simp] theorem rewindPc_faultReg (s : State) : (rewindPc s).faultReg = s.faultReg := rfl
@[simp] theorem rewindPc_draws (s : State) : (rewindPc s).draws = s.draws := rfl
@[simp] theorem rewindPc_readV (s : State) (r : Reg) : readV (rewindPc s) r = readV s r := rfl

/-! ### raiseFault -/

@[simp] theorem raiseFault_v (c : FaultCause) (s : State) : (raiseFault c s).v = s.v := rfl
@[simp] theorem raiseFault_i (c : FaultCause) (s : State) : (raiseFault c s).i = s.i := rfl
@[simp] theorem raiseFault_pc (c : FaultCause) (s : State) : (raiseFault c s).pc = s.pc - 2 := rfl
@[simp] theorem raiseFault_sp (c : FaultCause) (s : State) : (raiseFault c s).sp = s.sp := rfl
@[simp] theorem raiseFault_stack (c : FaultCause) (s : State) : (raiseFault c s).stack = s.stack := rfl
@[simp] theorem raiseFault_dt (c : FaultCause) (s : State) : (raiseFault c s).dt = s.dt := rfl
@[simp] theorem raiseFault_st (c : FaultCause) (s : State) : (raiseFault c s).st = s.st := rfl
@[simp] theorem raiseFault_keys (c : FaultCause) (s : State) : (raiseFault c s).keys = s.keys := rfl
@[simp] theorem raiseFault_display (c : FaultCause) (s : State) : (raiseFault c s).display = s.display := rfl
@[simp] theorem raiseFault_mem (c : FaultCause) (s : State) : (raiseFault c s).mem = s.mem := rfl
@[simp] theorem raiseFault_faultReg (c : FaultCause) (s : State) : (raiseFault c s).faultReg = c := rfl
@[simp] theorem raiseFault_draws (c : FaultCause) (s : State) : (raiseFault c s).draws = s.draws := rfl
@[simp] theorem raiseFault_readV (c : FaultCause) (s : State) (r : Reg) : readV (raiseFault c s) r = readV s r := rfl

/-! ### skipIf -/

@[simp] theorem skipIf_v (c : Bool) (s : State) : (skipIf c s).v = s.v := by cases c <;> rfl
@[simp] theorem skipIf_i (c : Bool) (s : State) : (skipIf c s).i = s.i := by cases c <;> rfl
@[simp] theorem skipIf_pc (c : Bool) (s : State) : (skipIf c s).pc = if c then s.pc + 2 else s.pc := by
  cases c <;> rfl
@[simp] theorem skipIf_sp (c : Bool) (s : State) : (skipIf c s).sp = s.sp := by cases c <;> rfl
@[simp] theorem skipIf_stack (c : Bool) (s : State) : (skipIf c s).stack = s.stack := by cases c <;> rfl
@[simp] theorem skipIf_dt (c : Bool) (s : State) : (skipIf c s).dt = s.dt := by cases c <;> rfl
@[simp] theorem skipIf_st (c : Bool) (s : State) : (skipIf c s).st = s.st := by cases c <;> rfl
@[simp] theorem skipIf_keys (c : Bool) (s : State) : (skipIf c s).keys = s.keys := by cases c <;> rfl
@[simp] theorem skipIf_display (c : Bool) (s : State) : (skipIf c s).display = s.display := by cases c <;> rfl
@[simp] theorem skipIf_mem (c : Bool) (s : State) : (skipIf c s).mem = s.mem := by cases c <;> rfl
@[simp] theorem skipIf_faultReg (c : Bool) (s : State) : (skipIf c s).faultReg = s.faultReg := by cases c <;> rfl
@[simp] theorem skipIf_draws (c : Bool) (s : State) : (skipIf c s).draws = s.draws := by cases c <;> rfl
@[simp] theorem skipIf_readV (c : Bool) (s : State) (r : Reg) : readV (skipIf c s) r = readV s r := by
  cases c <;> rfl

/-! ### drawRand -/

@[simp] theorem drawRand_byte (s : State) : (drawRand s).1 = Config.rand s.draws := rfl
@[simp] theorem drawRand_v (s : State) : (drawRand s).2.v = s.v := rfl
@[simp] theorem drawRand_i (s : State) : (drawRand s).2.i = s.i := rfl
@[simp] theorem drawRand_pc (s : State) : (drawRand s).2.pc = s.pc := rfl
@[simp] theorem drawRand_sp (s : State) : (drawRand s).2.sp = s.sp := rfl
@[simp] theorem drawRand_stack (s : State) : (drawRand s).2.stack = s.stack := rfl
@[simp] theorem drawRand_dt (s : State) : (drawRand s).2.dt = s.dt := rfl
@[simp] theorem drawRand_st (s : State) : (drawRand s).2.st = s.st := rfl
@[simp] theorem drawRand_keys (s : State) : (drawRand s).2.keys = s.keys := rfl
@[simp] theorem drawRand_display (s : State) : (drawRand s).2.display = s.display := rfl
@[simp] theorem drawRand_mem (s : State) : (drawRand s).2.mem = s.mem := rfl
@[simp] theorem drawRand_faultReg (s : State) : (drawRand s).2.faultReg = s.faultReg := rfl
@[simp] theorem drawRand_draws (s : State) : (drawRand s).2.draws = s.draws + 1 := rfl
@[simp] theorem drawRand_readV (s : State) (r : Reg) : readV (drawRand s).2 r = readV s r := rfl

/-! ### Registers -/

/-- Reading a register after a write (R8, R12). -/
theorem readV_writeV (s : State) (x r : Reg) (b : Byte) :
    readV (writeV s x b) r = if r = x then b else readV s r := by
  by_cases h : r = x
  · subst h; simp [readV, writeV]
  · have : x.val ≠ r.val := fun e => h (Fin.ext e.symm)
    simp [readV, writeV, h, Vector.getElem_set_ne, this]

@[simp] theorem readV_writeV_same (s : State) (x : Reg) (b : Byte) : readV (writeV s x b) x = b := by
  simp [readV_writeV]

theorem readV_writeV_of_ne (s : State) (x r : Reg) (b : Byte) (h : r ≠ x) :
    readV (writeV s x b) r = readV s r := by
  simp [readV_writeV, h]

/-- After Vx and then VF are written: VF holds the flag whatever x is (R49). -/
theorem readV_writeVFlag (s : State) (x r : Reg) (b flag : Byte) :
    readV (writeVFlag s x b flag) r = if r = vf then flag else if r = x then b else readV s r := by
  simp [writeVFlag, readV_writeV]

end Sys2Proof.Machine
end

