-- ==== Sys2Proof/Laws/Memory.lean ====
section
/-! SUPPORT. Memory: reading after a write, and the canonical form, which every operation keeps. -/

namespace Sys2Proof.Machine

/-! ### Lookup after erase and insert -/

theorem memLookup_memErase (m : Memory) (a k : Nat) :
    memLookup (memErase m a) k = if k = a then none else memLookup m k := by
  induction m with
  | nil => simp [memErase, memLookup]
  | cons c cs ih =>
    by_cases hc : c.1 = a
    · by_cases hk : k = a
      · subst hk; simp [memErase, hc, ih]
      · have : a ≠ k := fun e => hk e.symm
        simp [memErase, memLookup, hc, ih, hk, this]
    · by_cases hk : k = a
      · subst hk; simp [memErase, memLookup, hc, ih]
      · simp [memErase, memLookup, hc, ih, hk]

theorem memLookup_memInsert (m : Memory) (a k : Nat) (b : Byte) :
    memLookup (memInsert m a b) k = if k = a then some b else memLookup m k := by
  induction m with
  | nil => simp [memInsert, memLookup, eq_comm]
  | cons c cs ih =>
    by_cases hlt : a < c.1
    · simp [memInsert, memLookup, hlt, eq_comm]
    · by_cases hc : c.1 = a
      · subst hc
        by_cases hk : k = c.1
        · simp [memInsert, memLookup, hk]
        · have : c.1 ≠ k := fun e => hk e.symm
          simp [memInsert, memLookup, hk, this]
      · by_cases hk : k = a
        · subst hk; simp [memInsert, memLookup, hlt, hc, ih]
        · simp [memInsert, memLookup, hlt, hc, ih, hk]

/-! ### Reading (R30, R31, R37) -/

/-- An address and its remainder modulo 4096 are one byte (R30). -/
@[simp] theorem memRead_mod (m : Memory) (a : Nat) : memRead m (a % Config.memSize) = memRead m a := by
  simp [memRead]

theorem memRead_congr (m : Memory) {a b : Nat} (h : a % 4096 = b % 4096) : memRead m a = memRead m b := by
  simp [memRead, h]

/-- A read returns the byte written last, and a write changes only that byte (R31, R37). -/
theorem memRead_memWrite (m : Memory) (a k : Nat) (b : Byte) :
    memRead (memWrite m a b) k = if k % 4096 = a % 4096 then b else memRead m k := by
  by_cases hb : b = memInitial (a % 4096)
  · by_cases hk : k % 4096 = a % 4096
    · simp [memRead, memWrite, hb, memLookup_memErase, hk]
    · simp [memRead, memWrite, hb, memLookup_memErase, hk]
  · by_cases hk : k % 4096 = a % 4096
    · simp [memRead, memWrite, hb, memLookup_memInsert, hk]
    · simp [memRead, memWrite, hb, memLookup_memInsert, hk]

/-! ### The canonical form -/

theorem memWfFrom_weaken {m : Memory} {lo hi : Nat} (h : memWfFrom hi m = true) (hle : lo ≤ hi) :
    memWfFrom lo m = true := by
  cases m with
  | nil => rfl
  | cons c cs =>
    simp only [memWfFrom, Bool.and_eq_true, decide_eq_true_eq] at h ⊢
    exact ⟨⟨⟨by omega, h.1.1.2⟩, h.1.2⟩, h.2⟩

theorem memErase_wfFrom {m : Memory} {lo : Nat} (a : Nat) (h : memWfFrom lo m = true) :
    memWfFrom lo (memErase m a) = true := by
  induction m generalizing lo with
  | nil => rfl
  | cons c cs ih =>
    simp only [memWfFrom, Bool.and_eq_true, decide_eq_true_eq] at h
    by_cases hc : c.1 = a
    · simp only [memErase, hc, if_true]
      exact ih (memWfFrom_weaken h.2 (by omega))
    · simp only [memErase, hc, if_false, memWfFrom, Bool.and_eq_true, decide_eq_true_eq]
      exact ⟨h.1, ih h.2⟩

theorem memInsert_wfFrom {m : Memory} {lo : Nat} (a : Nat) (b : Byte) (hlo : lo ≤ a) (ha : a < 4096)
    (hb : b ≠ memInitial a) (h : memWfFrom lo m = true) : memWfFrom lo (memInsert m a b) = true := by
  induction m generalizing lo with
  | nil => simp [memInsert, memWfFrom, hlo, ha, hb]
  | cons c cs ih =>
    simp only [memWfFrom, Bool.and_eq_true, decide_eq_true_eq] at h
    by_cases hlt : a < c.1
    · simp only [memInsert, hlt, if_true, memWfFrom, Bool.and_eq_true, decide_eq_true_eq, bne_iff_ne]
      exact ⟨⟨⟨hlo, ha⟩, hb⟩, ⟨⟨by omega, h.1.1.2⟩, by simpa using h.1.2⟩, h.2⟩
    · by_cases hc : c.1 = a
      · rw [memInsert, if_neg hlt, if_pos hc]
        simp only [memWfFrom, Bool.and_eq_true, decide_eq_true_eq, bne_iff_ne]
        exact ⟨⟨⟨hlo, ha⟩, hb⟩, hc ▸ h.2⟩
      · simp only [memInsert, hlt, hc, if_false, memWfFrom, Bool.and_eq_true, decide_eq_true_eq]
        exact ⟨h.1, ih (by omega) h.2⟩

/-- A write keeps the canonical form. -/
theorem memWrite_wf {m : Memory} (a : Nat) (b : Byte) (h : memWf m = true) : memWf (memWrite m a b) = true := by
  unfold memWrite memWf
  split
  · exact memErase_wfFrom _ h
  · next hb => exact memInsert_wfFrom _ b (Nat.zero_le _) (Nat.mod_lt _ (by decide)) hb h

/-- Reset memory lists nothing and so has the canonical form. -/
theorem reset_mem_wf : memWf State.reset.mem = true := rfl

/-- Reset memory reads as the font region's bytes and 0 elsewhere (R22, R111). -/
theorem memRead_reset (a : Nat) : memRead State.reset.mem a = memInitial (a % 4096) := rfl

/-! ### Register blocks (R82, R83) -/

theorem storeBlock_wf (v : Vector Byte 16) (a : Nat) (ks : List Reg) {m : Memory} (h : memWf m = true) :
    memWf (storeBlock v a ks m) = true := by
  induction ks generalizing m with
  | nil => exact h
  | cons k ks ih => exact ih (memWrite_wf _ _ h)

/-- A byte none of the registers is stored to is unchanged. -/
theorem memRead_storeBlock_of_notMem (v : Vector Byte 16) (a : Nat) (ks : List Reg) (m : Memory) (j : Nat)
    (h : ∀ k ∈ ks, j % 4096 ≠ (a + k.val) % 4096) : memRead (storeBlock v a ks m) j = memRead m j := by
  induction ks generalizing m with
  | nil => rfl
  | cons k ks ih =>
    rw [storeBlock, ih _ fun k' hk' => h k' (List.mem_cons_of_mem _ hk'), memRead_memWrite,
      if_neg (h k List.mem_cons_self)]

/-- Every register stored is found at its address: 16 addresses in a row never meet modulo 4096. -/
theorem memRead_storeBlock_of_mem (v : Vector Byte 16) (a : Nat) (ks : List Reg) (m : Memory) {k : Reg}
    (h : k ∈ ks) : memRead (storeBlock v a ks m) (a + k.val) = v[k] := by
  induction ks generalizing m with
  | nil => cases h
  | cons k' ks ih =>
    by_cases hk : k ∈ ks
    · exact ih _ hk
    · obtain rfl : k = k' := by simpa [hk] using h
      rw [storeBlock, memRead_storeBlock_of_notMem, memRead_memWrite, if_pos rfl]
      intro j hj e
      have : j ≠ k := fun e' => hk (e' ▸ hj)
      have : j.val ≠ k.val := fun e' => this (Fin.ext e')
      omega

/-- Loading a block: each register of the block holds the byte at its address, every other is unchanged. -/
theorem loadBlock_get (m : Memory) (a : Nat) (ks : List Reg) (v : Vector Byte 16) (r : Reg) :
    (loadBlock m a ks v)[r] = if r ∈ ks then memRead m (a + r.val) else v[r] := by
  induction ks generalizing v with
  | nil => rfl
  | cons k ks ih =>
    rw [loadBlock, ih]
    by_cases hr : r ∈ ks
    · simp [hr]
    · by_cases hk : r = k
      · subst hk; simp [hr]
      · have : k.val ≠ r.val := fun e => hk (Fin.ext e.symm)
        simp [hr, hk, Vector.getElem_set_ne, this]

/-- V0..Vx inclusive (R82, R83). -/
@[simp] theorem mem_regsUpTo (x r : Reg) : r ∈ regsUpTo x ↔ r.val ≤ x.val := by
  simp only [regsUpTo, List.mem_take_iff_getElem, List.length_finRange, List.getElem_finRange]
  constructor
  · rintro ⟨i, hi, rfl⟩; simp; omega
  · intro h; exact ⟨r.val, by omega, by simp⟩

end Sys2Proof.Machine
end

