-- ==== Sys2Proof/Laws/Ops.lean ====
section
/-! SUPPORT. One lemma per shared operation that says everything it can do. -/

namespace Sys2Proof.Machine

/-! ### Call stack (R16, R58, R60) -/

/-- A push with room: the entry at SP, SP one more, nothing else. -/
theorem pushReturn_of_lt (s : State) (w : Word) (h : s.sp.val < 16) :
    pushReturn s w = some (setSp (setStack s (s.stack.set s.sp.val w)) ⟨s.sp.val + 1, by omega⟩) := by
  simp [pushReturn, h]

/-- A push on a full stack answers nothing. -/
theorem pushReturn_full (s : State) (w : Word) (h : s.sp = 16) : pushReturn s w = none := by
  simp [pushReturn, h]

/-- A pop with an entry: the entry below SP, SP one less, nothing else. -/
theorem popReturn_of_pos (s : State) (h : s.sp.val ≠ 0) :
    popReturn s = some (s.stack[s.sp.val - 1], setSp s ⟨s.sp.val - 1, by omega⟩) := by
  simp [popReturn, h]

/-- A pop on an empty stack answers nothing. -/
theorem popReturn_empty (s : State) (h : s.sp = 0) : popReturn s = none := by
  simp [popReturn, h]

/-- The stack is full exactly when SP is not below 16 (R16). -/
theorem sp_eq_sixteen_iff (s : State) : s.sp = 16 ↔ ¬ s.sp.val < 16 := by
  constructor
  · intro h; simp [h]
  · intro h; apply Fin.ext; have := s.sp.isLt; change s.sp.val = 16; omega

/-! ### Keys (R84, R85, R87) -/

theorem keyIndex_of_le (b : Byte) (h : b.toNat < 16) : keyIndex b = some ⟨b.toNat, h⟩ := by simp [keyIndex, h]

theorem keyIndex_of_gt (b : Byte) (h : ¬ b.toNat < 16) : keyIndex b = none := by simp [keyIndex, h]

/-- No key is found exactly when none is pressed (R87). -/
theorem firstKey_eq_none (k : Vector Bool 16) : firstKey k = none ↔ ∀ j : Fin 16, k[j] = false := by
  simp [firstKey]

/-- The key found is pressed and no lower one is (R87). -/
theorem firstKey_eq_some (k : Vector Bool 16) (j : Fin 16) :
    firstKey k = some j ↔ k[j] = true ∧ ∀ i : Fin 16, i < j → k[i] = false := by
  constructor
  · intro h
    have hj := List.find?_some h
    refine ⟨by simpa using hj, fun i hij => ?_⟩
    simp only [firstKey, List.find?_eq_some_iff_getElem] at h
    obtain ⟨-, n, hn, hnj, hlt⟩ := h
    have hjn : n = j.val := by rw [← hnj]; simp
    have := hlt i.val (by omega)
    simpa using this
  · rintro ⟨hj, hlt⟩
    cases hf : firstKey k with
    | none => exact absurd ((firstKey_eq_none k).1 hf j) (by simp [hj])
    | some i =>
      have hi := List.find?_some hf
      have hi' : k[i] = true := by simpa using hi
      simp only [firstKey, List.find?_eq_some_iff_getElem] at hf
      obtain ⟨-, n, hn, hni, hbelow⟩ := hf
      have hin : n = i.val := by rw [← hni]; simp
      rcases lt_trichotomy i j with hij | hij | hij
      · exact absurd (hlt i hij) (by simp [hi'])
      · rw [hij]
      · have hji : j.val < n := hin ▸ hij
        have := hbelow j.val hji
        simp at this
        exact absurd this (by simpa using hj)

/-! ### Display (R55, R56) -/

@[simp] theorem pixel_clearDisplay (y : Fin 32) (x : Fin 64) : pixel clearDisplay y x = false := by
  simp [pixel, clearDisplay]

/-- A toggle changes one pixel and no other. -/
theorem pixel_togglePixel (d : Display) (y y' : Fin 32) (x x' : Fin 64) :
    pixel (togglePixel d y x) y' x' = (pixel d y' x' ^^ decide (y' = y ∧ x' = x)) := by
  by_cases hy : y' = y
  · subst hy
    by_cases hx : x' = x
    · subst hx; simp [pixel, togglePixel]
    · have : x.val ≠ x'.val := fun e => hx (Fin.ext e.symm)
      simp [pixel, togglePixel, hx, Vector.getElem_set_ne, this]
  · have : y.val ≠ y'.val := fun e => hy (Fin.ext e.symm)
    simp [pixel, togglePixel, hy, Vector.getElem_set_ne, this]

/-- The bit of sprite row `b`, drawn from column `x0`, that falls on column `x`: bit 7 on `x0`, bit 0 on `x0 + 7` (R56). -/
def rowBit (b : Byte) (x0 x : Fin 64) : Bool :=
  decide (x0.val ≤ x.val ∧ x.val < x0.val + 8) && b.getLsbD (7 - (x.val - x0.val))

/-- Drawing the columns `c .. c + n - 1` of a sprite row toggles the pixels of its set bits on row `y` that lie on the display. -/
theorem drawRow_pixel_range (b : Byte) (y : Fin 32) (x0 : Fin 64) (c n : Nat) (cv : Canvas) (y' : Fin 32)
    (x : Fin 64) :
    pixel (drawRow b y x0 (List.range' c n) cv).display y' x =
      (pixel cv.display y' x ^^
        (decide (y' = y) && (decide (x0.val + c ≤ x.val ∧ x.val < x0.val + c + n) &&
          b.getLsbD (7 - (x.val - x0.val))))) := by
  induction n generalizing c cv with
  | zero =>
    have : ¬ (x0.val + c ≤ x.val ∧ x.val < x0.val + c) := by omega
    simp [drawRow, this]
  | succ n ih =>
    rw [List.range'_succ, drawRow]
    by_cases h : x0.val + c < 64
    · rw [dif_pos h, ih]
      by_cases hx : x.val = x0.val + c
      · have hx' : x = ⟨x0.val + c, h⟩ := Fin.ext hx
        have e : x.val - x0.val = c := by omega
        have h1 : ¬ (x0.val + (c + 1) ≤ x.val ∧ x.val < x0.val + (c + 1) + n) := by omega
        have h2 : x0.val + c ≤ x.val ∧ x.val < x0.val + c + (n + 1) := by omega
        cases hb : b.getLsbD (7 - c) <;> simp [e, hb, h1, h2, plot, pixel_togglePixel, ← hx']
      · have hx' : ¬ x = ⟨x0.val + c, h⟩ := fun e => hx (congrArg Fin.val e)
        have h1 : (x0.val + (c + 1) ≤ x.val ∧ x.val < x0.val + (c + 1) + n) ↔
            (x0.val + c ≤ x.val ∧ x.val < x0.val + c + (n + 1)) := by omega
        cases hb : b.getLsbD (7 - c) <;> simp [h1, plot, pixel_togglePixel, hx']
    · have : ¬ (x0.val + c ≤ x.val ∧ x.val < x0.val + c + (n + 1)) := by have := x.isLt; omega
      rw [dif_neg h]; simp [this]

/-- Drawing them notes a collision exactly when one was noted before or a toggled pixel was set. -/
theorem drawRow_collided_range (b : Byte) (y : Fin 32) (x0 : Fin 64) (c n : Nat) (cv : Canvas) :
    (drawRow b y x0 (List.range' c n) cv).collided = true ↔
      cv.collided = true ∨ ∃ x : Fin 64, (x0.val + c ≤ x.val ∧ x.val < x0.val + c + n) ∧
        b.getLsbD (7 - (x.val - x0.val)) = true ∧ pixel cv.display y x = true := by
  induction n generalizing c cv with
  | zero =>
    simp only [List.range'_zero, drawRow, Nat.add_zero]
    constructor
    · exact .inl
    · rintro (h | ⟨x, hx, -⟩)
      · exact h
      · omega
  | succ n ih =>
    rw [List.range'_succ, drawRow]
    by_cases h : x0.val + c < 64
    · rw [dif_pos h, ih]
      have key : ∀ x : Fin 64, x0.val + (c + 1) ≤ x.val →
          pixel (if b.getLsbD (7 - c) = true then plot y ⟨x0.val + c, h⟩ cv else cv).display y x =
            pixel cv.display y x := by
        intro x hx
        have hne : ¬ x = ⟨x0.val + c, h⟩ := fun e => by have := congrArg Fin.val e; simp at this; omega
        split <;> simp [plot, pixel_togglePixel, hne]
      have hcol : (if b.getLsbD (7 - c) = true then plot y ⟨x0.val + c, h⟩ cv else cv).collided = true ↔
          cv.collided = true ∨ (b.getLsbD (7 - c) = true ∧ pixel cv.display y ⟨x0.val + c, h⟩ = true) := by
        split <;> simp_all [plot]
      rw [hcol]
      constructor
      · rintro ((h0 | ⟨hb, hp⟩) | ⟨x, hx, hb, hp⟩)
        · exact .inl h0
        · exact .inr ⟨⟨x0.val + c, h⟩, ⟨by simp, by simp⟩, by simpa using hb, hp⟩
        · exact .inr ⟨x, by omega, hb, key x hx.1 ▸ hp⟩
      · rintro (h0 | ⟨x, hx, hb, hp⟩)
        · exact .inl (.inl h0)
        · by_cases hxc : x.val = x0.val + c
          · obtain rfl : x = ⟨x0.val + c, h⟩ := Fin.ext hxc
            exact .inl (.inr ⟨by simpa using hb, hp⟩)
          · exact .inr ⟨x, by omega, hb, (key x (by omega)).symm ▸ hp⟩
    · rw [dif_neg h]
      constructor
      · exact .inl
      · rintro (h0 | ⟨x, hx, -⟩)
        · exact h0
        · have := x.isLt; omega

/-- One whole sprite row (R56). -/
theorem drawRow_pixel (b : Byte) (y : Fin 32) (x0 : Fin 64) (cv : Canvas) (y' : Fin 32) (x : Fin 64) :
    pixel (drawRow b y x0 (List.range 8) cv).display y' x =
      (pixel cv.display y' x ^^ (decide (y' = y) && rowBit b x0 x)) := by
  rw [List.range_eq_range', drawRow_pixel_range]; rfl

theorem drawRow_collided (b : Byte) (y : Fin 32) (x0 : Fin 64) (cv : Canvas) :
    (drawRow b y x0 (List.range 8) cv).collided = true ↔
      cv.collided = true ∨ ∃ x : Fin 64, rowBit b x0 x = true ∧ pixel cv.display y x = true := by
  rw [List.range_eq_range', drawRow_collided_range]
  simp only [rowBit, Bool.and_eq_true, decide_eq_true_eq, and_assoc, Nat.add_zero]

/-- Display rows of distinct sprite rows below 32 are distinct (R56, corner cases). -/
theorem spriteRow_inj (y0 : Fin 32) {r r' : Nat} (hr : r < 32) (hr' : r' < 32)
    (h : Fin.ofNat 32 (y0.val + r) = Fin.ofNat 32 (y0.val + r')) : r = r' := by
  have := congrArg Fin.val h
  simp only [Fin.ofNat] at this
  omega

/-- Whether a set bit of one of the sprite rows `rs` falls on the pixel (x, y) (R56). -/
def rowsBit (m : Memory) (base : Nat) (x0 : Fin 64) (y0 : Fin 32) (rs : List Nat) (y : Fin 32) (x : Fin 64) : Bool :=
  rs.any fun r => decide (y = Fin.ofNat 32 (y0.val + r)) && rowBit (memRead m (base + r)) x0 x

theorem rowsBit_eq_true (m : Memory) (base : Nat) (x0 : Fin 64) (y0 : Fin 32) (rs : List Nat) (y : Fin 32)
    (x : Fin 64) : rowsBit m base x0 y0 rs y x = true ↔
      ∃ r ∈ rs, y = Fin.ofNat 32 (y0.val + r) ∧ rowBit (memRead m (base + r)) x0 x = true := by
  simp only [rowsBit, List.any_eq_true, Bool.and_eq_true, decide_eq_true_eq]

/-- Drawing distinct sprite rows toggles exactly the pixels their set bits fall on (R56). -/
theorem drawRows_pixel (m : Memory) (base : Nat) (x0 : Fin 64) (y0 : Fin 32) (rs : List Nat) (cv : Canvas)
    (hn : rs.Nodup) (hlt : ∀ r ∈ rs, r < 32) (y : Fin 32) (x : Fin 64) :
    pixel (drawRows m base x0 y0 rs cv).display y x =
      (pixel cv.display y x ^^ rowsBit m base x0 y0 rs y x) := by
  induction rs generalizing cv with
  | nil => simp [drawRows, rowsBit]
  | cons r rs ih =>
    rw [drawRows, ih _ (List.nodup_cons.1 hn).2 fun r' h => hlt r' (List.mem_cons_of_mem _ h), drawRow_pixel]
    by_cases hy : y = Fin.ofNat 32 (y0.val + r)
    · have hno : rowsBit m base x0 y0 rs y x = false := by
        rw [← Bool.not_eq_true, rowsBit_eq_true]
        rintro ⟨r', hr', e, -⟩
        have := spriteRow_inj y0 (hlt r List.mem_cons_self) (hlt r' (List.mem_cons_of_mem _ hr')) (hy.symm.trans e)
        exact (List.nodup_cons.1 hn).1 (this ▸ hr')
      have hcons : rowsBit m base x0 y0 (r :: rs) y x = rowBit (memRead m (base + r)) x0 x := by
        rw [← Bool.or_false (rowBit _ _ _), ← hno, rowsBit, List.any_cons, decide_eq_true hy, Bool.true_and, rowsBit]
      rw [hcons, hno, decide_eq_true hy, Bool.true_and, Bool.xor_false]
    · have hcons : rowsBit m base x0 y0 (r :: rs) y x = rowsBit m base x0 y0 rs y x := by
        rw [rowsBit, List.any_cons, decide_eq_false hy, Bool.false_and, Bool.false_or, rowsBit]
      rw [hcons, decide_eq_false hy, Bool.false_and, Bool.xor_false]

/-- Drawing them notes a collision exactly when one was noted before or a set bit falls on a set pixel (R56). -/
theorem drawRows_collided (m : Memory) (base : Nat) (x0 : Fin 64) (y0 : Fin 32) (rs : List Nat) (cv : Canvas)
    (hn : rs.Nodup) (hlt : ∀ r ∈ rs, r < 32) :
    (drawRows m base x0 y0 rs cv).collided = true ↔
      cv.collided = true ∨ ∃ r ∈ rs, ∃ x : Fin 64, rowBit (memRead m (base + r)) x0 x = true ∧
        pixel cv.display (Fin.ofNat 32 (y0.val + r)) x = true := by
  induction rs generalizing cv with
  | nil => simp [drawRows]
  | cons r rs ih =>
    rw [drawRows, ih _ (List.nodup_cons.1 hn).2 fun r' h => hlt r' (List.mem_cons_of_mem _ h), drawRow_collided]
    have hne : ∀ r' ∈ rs, ∀ x : Fin 64,
        pixel (drawRow (memRead m (base + r)) (Fin.ofNat 32 (y0.val + r)) x0 (List.range 8) cv).display
          (Fin.ofNat 32 (y0.val + r')) x = pixel cv.display (Fin.ofNat 32 (y0.val + r')) x := by
      intro r' hr' x
      have : ¬ Fin.ofNat 32 (y0.val + r') = Fin.ofNat 32 (y0.val + r) := fun e =>
        (List.nodup_cons.1 hn).1 (spriteRow_inj y0 (hlt r' (List.mem_cons_of_mem _ hr'))
          (hlt r List.mem_cons_self) e ▸ hr')
      rw [drawRow_pixel, decide_eq_false this]; simp
    constructor
    · rintro ((h | ⟨x, hb, hp⟩) | ⟨r', hr', x, hb, hp⟩)
      · exact .inl h
      · exact .inr ⟨r, List.mem_cons_self, x, hb, hp⟩
      · exact .inr ⟨r', List.mem_cons_of_mem _ hr', x, hb, hne r' hr' x ▸ hp⟩
    · rintro (h | ⟨r', hr', x, hb, hp⟩)
      · exact .inl (.inl h)
      · rcases List.mem_cons.1 hr' with rfl | hr'
        · exact .inl (.inr ⟨x, hb, hp⟩)
        · exact .inr ⟨r', hr', x, hb, (hne r' hr' x).symm ▸ hp⟩

/-! ### Loading a program (R112) -/

theorem loadBytes_wf (m : Memory) (a : Nat) (bs : List Byte) (h : memWf m = true) :
    memWf (loadBytes m a bs) = true := by
  induction bs generalizing m a with
  | nil => exact h
  | cons b bs ih => exact ih _ _ (memWrite_wf a b h)

/-- A byte the program does not reach is unchanged. -/
theorem memRead_loadBytes_of_outside (m : Memory) (a : Nat) (bs : List Byte) (k : Nat)
    (h : ∀ j < bs.length, k % 4096 ≠ (a + j) % 4096) : memRead (loadBytes m a bs) k = memRead m k := by
  induction bs generalizing m a with
  | nil => rfl
  | cons b bs ih =>
    rw [loadBytes, ih, memRead_memWrite, if_neg (by simpa using h 0 (by simp))]
    intro j hj
    have := h (j + 1) (by simpa using hj)
    rwa [show a + (j + 1) = a + 1 + j by omega] at this

/-- Each byte of a program that fits is found at its address. -/
theorem memRead_loadBytes (m : Memory) (a : Nat) (bs : List Byte) (hfit : bs.length ≤ 4096) (j : Nat)
    (hj : j < bs.length) : memRead (loadBytes m a bs) (a + j) = bs[j] := by
  induction bs generalizing m a j with
  | nil => simp at hj
  | cons b bs ih =>
    simp only [List.length_cons] at hfit hj
    cases j with
    | zero =>
      rw [loadBytes, memRead_loadBytes_of_outside, memRead_memWrite]
      · simp
      · intro i hi; omega
    | succ j =>
      rw [loadBytes, show a + (j + 1) = a + 1 + j by omega, ih (memWrite m a b) (a + 1) (by omega) j (by omega)]
      simp

/-! ### Timer tick (R100) -/

/-- One less, floored at 0. -/
theorem tickDown_toNat (b : Byte) : (tickDown b).toNat = b.toNat - 1 := by
  unfold tickDown
  split
  · next h => rw [BitVec.toNat_sub_of_le] <;> simp [BitVec.le_def]; omega
  · next h => simp; omega

end Sys2Proof.Machine
end

