-- ==== Sys2Proof/Laws/Fetch.lean ====
section
/-! SUPPORT. Fetching a word that has been placed at PC (spec 30_encoding.md R45; 20_memory.md R39). -/

namespace Sys2Proof.Machine

/-- Two addresses in a row are different bytes, at the top of memory too. -/
theorem next_addr_ne (a : Nat) : ¬ a % 4096 = (a + 1) % 4096 := by omega

/-- The next fetch reads the word placed at PC. -/
theorem fetchWord_placeWord (s : State) (w : Word) : fetchWord (setMem s (placeWord s w)) = w := by
  unfold fetchWord placeWord
  rw [setMem_mem, setMem_pc, memRead_memWrite, memRead_memWrite, memRead_memWrite, if_neg (next_addr_ne _),
    if_pos rfl, if_pos rfl, wordOfBytes_bytes]

/-- The next fetch after `withFetchWord` reads the table row's word, and the core is not faulted. -/
theorem fetchWord_withFetchWord (s : State) (nbits w : Nat) :
    fetchWord (s.withFetchWord nbits w) = tableWord nbits w ∧ halted (s.withFetchWord nbits w) = false :=
  ⟨fetchWord_placeWord s _, rfl⟩

theorem placeWord_wf (s : State) (w : Word) (h : memWf s.mem = true) : memWf (placeWord s w) = true :=
  memWrite_wf _ _ (memWrite_wf _ _ h)

end Sys2Proof.Machine
end

