-- ==== Sys2Proof/Laws/PerInstr.lean ====
section
/-! SUPPORT. Statements made per instruction. The family EncodingMatchesRow: an instruction's word matches its row of
spec/opcode_table.json, that is, its bits under the row's mask are the row's match. -/

namespace Sys2Proof

/-- The "mask" of the instruction's row in spec/opcode_table.json: 1 for each fixed opcode bit. -/
def rowMask : Instr → Word
  | .sys _ => 0xF000
  | .cls => 0xFFFF
  | .ret => 0xFFFF
  | .jp _ => 0xF000
  | .call _ => 0xF000
  | .seImm _ _ => 0xF000
  | .sneImm _ _ => 0xF000
  | .seReg _ _ => 0xF00F
  | .ldImm _ _ => 0xF000
  | .addImm _ _ => 0xF000
  | .ldReg _ _ => 0xF00F
  | .orReg _ _ => 0xF00F
  | .andReg _ _ => 0xF00F
  | .xorReg _ _ => 0xF00F
  | .addReg _ _ => 0xF00F
  | .subReg _ _ => 0xF00F
  | .shr _ _ => 0xF00F
  | .subn _ _ => 0xF00F
  | .shl _ _ => 0xF00F
  | .sneReg _ _ => 0xF00F
  | .ldI _ => 0xF000
  | .jpV0 _ => 0xF000
  | .rnd _ _ => 0xF000
  | .drw _ _ _ => 0xF000
  | .skp _ => 0xF0FF
  | .sknp _ => 0xF0FF
  | .ldVxDt _ => 0xF0FF
  | .ldVxK _ => 0xF0FF
  | .ldDtVx _ => 0xF0FF
  | .ldStVx _ => 0xF0FF
  | .addI _ => 0xF0FF
  | .ldF _ => 0xF0FF
  | .ldB _ => 0xF0FF
  | .storeRegs _ => 0xF0FF
  | .loadRegs _ => 0xF0FF

/-- The "match" of the instruction's row in spec/opcode_table.json: the values of the fixed opcode bits. -/
def rowMatch : Instr → Word
  | .sys _ => 0x0000
  | .cls => 0x00E0
  | .ret => 0x00EE
  | .jp _ => 0x1000
  | .call _ => 0x2000
  | .seImm _ _ => 0x3000
  | .sneImm _ _ => 0x4000
  | .seReg _ _ => 0x5000
  | .ldImm _ _ => 0x6000
  | .addImm _ _ => 0x7000
  | .ldReg _ _ => 0x8000
  | .orReg _ _ => 0x8001
  | .andReg _ _ => 0x8002
  | .xorReg _ _ => 0x8003
  | .addReg _ _ => 0x8004
  | .subReg _ _ => 0x8005
  | .shr _ _ => 0x8006
  | .subn _ _ => 0x8007
  | .shl _ _ => 0x800E
  | .sneReg _ _ => 0x9000
  | .ldI _ => 0xA000
  | .jpV0 _ => 0xB000
  | .rnd _ _ => 0xC000
  | .drw _ _ _ => 0xD000
  | .skp _ => 0xE09E
  | .sknp _ => 0xE0A1
  | .ldVxDt _ => 0xF007
  | .ldVxK _ => 0xF00A
  | .ldDtVx _ => 0xF015
  | .ldStVx _ => 0xF018
  | .addI _ => 0xF01E
  | .ldF _ => 0xF029
  | .ldB _ => 0xF033
  | .storeRegs _ => 0xF055
  | .loadRegs _ => 0xF065

/-! ### A word of each format under the masks of its rows -/

theorem and_nibble_ones (f : BitVec 4) : f &&& 0xF#4 = f := BitVec.and_allOnes

theorem and_byte_ones (b : Byte) : b &&& 0xFF#8 = b := BitVec.and_allOnes

theorem wordA_and_family (f : BitVec 4) (nnn : Imm12) : wordA f nnn &&& 0xF000 = f ++ 0#12 := by
  rw [show (0xF000 : Word) = (0xF#4 ++ 0#12 : BitVec 16) from rfl, wordA, BitVec.and_append, and_nibble_ones,
    BitVec.and_zero]

theorem wordRI_and_family (f : BitVec 4) (x : Reg) (nn : Byte) :
    wordRI f x nn &&& 0xF000 = f ++ 0#4 ++ 0#8 := by
  rw [show (0xF000 : Word) = (0xF#4 ++ 0#4 ++ 0#8 : BitVec 16) from rfl, wordRI, BitVec.and_append,
    BitVec.and_append, and_nibble_ones, BitVec.and_zero, BitVec.and_zero]

theorem wordRI_and_low (f : BitVec 4) (x : Reg) (nn : Byte) : wordRI f x nn &&& 0xF0FF = f ++ 0#4 ++ nn := by
  rw [show (0xF0FF : Word) = (0xF#4 ++ 0#4 ++ 0xFF#8 : BitVec 16) from rfl, wordRI, BitVec.and_append,
    BitVec.and_append, and_nibble_ones, and_byte_ones, BitVec.and_zero]

theorem wordRR_and_low (f : BitVec 4) (x y : Reg) (n : BitVec 4) :
    wordRR f x y n &&& 0xF00F = f ++ 0#4 ++ 0#4 ++ n := by
  rw [show (0xF00F : Word) = (0xF#4 ++ 0#4 ++ 0#4 ++ 0xF#4 : BitVec 16) from rfl, wordRR, BitVec.and_append,
    BitVec.and_append, BitVec.and_append, and_nibble_ones, and_nibble_ones, BitVec.and_zero, BitVec.and_zero]

theorem wordRR_and_family (f : BitVec 4) (x y : Reg) (n : BitVec 4) :
    wordRR f x y n &&& 0xF000 = f ++ 0#4 ++ 0#4 ++ 0#4 := by
  rw [show (0xF000 : Word) = (0xF#4 ++ 0#4 ++ 0#4 ++ 0#4 : BitVec 16) from rfl, wordRR, BitVec.and_append,
    BitVec.and_append, BitVec.and_append, and_nibble_ones, BitVec.and_zero, BitVec.and_zero, BitVec.and_zero]

namespace Laws.EncodingMatchesRow

/-- The word of the instruction matches its row (R46). -/
def Statement (i : Instr) : Prop := encode i &&& rowMask i = rowMatch i

theorem sys (nnn : Imm12) : Statement (.sys nnn) := wordA_and_family _ _
theorem cls : Statement .cls := rfl
theorem ret : Statement .ret := rfl
theorem jp (nnn : Imm12) : Statement (.jp nnn) := wordA_and_family _ _
theorem call (nnn : Imm12) : Statement (.call nnn) := wordA_and_family _ _
theorem seImm (x : Reg) (nn : Byte) : Statement (.seImm x nn) := wordRI_and_family _ _ _
theorem sneImm (x : Reg) (nn : Byte) : Statement (.sneImm x nn) := wordRI_and_family _ _ _
theorem seReg (x y : Reg) : Statement (.seReg x y) := wordRR_and_low _ _ _ _
theorem ldImm (x : Reg) (nn : Byte) : Statement (.ldImm x nn) := wordRI_and_family _ _ _
theorem addImm (x : Reg) (nn : Byte) : Statement (.addImm x nn) := wordRI_and_family _ _ _
theorem ldReg (x y : Reg) : Statement (.ldReg x y) := wordRR_and_low _ _ _ _
theorem orReg (x y : Reg) : Statement (.orReg x y) := wordRR_and_low _ _ _ _
theorem andReg (x y : Reg) : Statement (.andReg x y) := wordRR_and_low _ _ _ _
theorem xorReg (x y : Reg) : Statement (.xorReg x y) := wordRR_and_low _ _ _ _
theorem addReg (x y : Reg) : Statement (.addReg x y) := wordRR_and_low _ _ _ _
theorem subReg (x y : Reg) : Statement (.subReg x y) := wordRR_and_low _ _ _ _
theorem shr (x y : Reg) : Statement (.shr x y) := wordRR_and_low _ _ _ _
theorem subn (x y : Reg) : Statement (.subn x y) := wordRR_and_low _ _ _ _
theorem shl (x y : Reg) : Statement (.shl x y) := wordRR_and_low _ _ _ _
theorem sneReg (x y : Reg) : Statement (.sneReg x y) := wordRR_and_low _ _ _ _
theorem ldI (nnn : Imm12) : Statement (.ldI nnn) := wordA_and_family _ _
theorem jpV0 (nnn : Imm12) : Statement (.jpV0 nnn) := wordA_and_family _ _
theorem rnd (x : Reg) (nn : Byte) : Statement (.rnd x nn) := wordRI_and_family _ _ _
theorem drw (x y : Reg) (n : Fin 16) : Statement (.drw x y n) := wordRR_and_family _ _ _ _
theorem skp (x : Reg) : Statement (.skp x) := wordRI_and_low _ _ _
theorem sknp (x : Reg) : Statement (.sknp x) := wordRI_and_low _ _ _
theorem ldVxDt (x : Reg) : Statement (.ldVxDt x) := wordRI_and_low _ _ _
theorem ldVxK (x : Reg) : Statement (.ldVxK x) := wordRI_and_low _ _ _
theorem ldDtVx (x : Reg) : Statement (.ldDtVx x) := wordRI_and_low _ _ _
theorem ldStVx (x : Reg) : Statement (.ldStVx x) := wordRI_and_low _ _ _
theorem addI (x : Reg) : Statement (.addI x) := wordRI_and_low _ _ _
theorem ldF (x : Reg) : Statement (.ldF x) := wordRI_and_low _ _ _
theorem ldB (x : Reg) : Statement (.ldB x) := wordRI_and_low _ _ _
theorem storeRegs (x : Reg) : Statement (.storeRegs x) := wordRI_and_low _ _ _
theorem loadRegs (x : Reg) : Statement (.loadRegs x) := wordRI_and_low _ _ _

end Laws.EncodingMatchesRow

end Sys2Proof
end

