-- ==== Sys2Proof/Laws/Step.lean ====
section
/-! SUPPORT. What exec and step can do: each arm of exec, and the inversion of a step (spec 30_encoding.md R45). -/

namespace Sys2Proof.Machine

/-! ### The arms of exec -/

@[simp] theorem exec_sys (nnn : Imm12) (s : State) : exec (.sys nnn) s = execSys nnn s := rfl
@[simp] theorem exec_cls (s : State) : exec .cls s = execCls s := rfl
@[simp] theorem exec_ret (s : State) : exec .ret s = execRet s := rfl
@[simp] theorem exec_jp (nnn : Imm12) (s : State) : exec (.jp nnn) s = execJp nnn s := rfl
@[simp] theorem exec_call (nnn : Imm12) (s : State) : exec (.call nnn) s = execCall nnn s := rfl
@[simp] theorem exec_seImm (x : Reg) (nn : Byte) (s : State) : exec (.seImm x nn) s = execSeImm x nn s := rfl
@[simp] theorem exec_sneImm (x : Reg) (nn : Byte) (s : State) : exec (.sneImm x nn) s = execSneImm x nn s := rfl
@[simp] theorem exec_seReg (x y : Reg) (s : State) : exec (.seReg x y) s = execSeReg x y s := rfl
@[simp] theorem exec_ldImm (x : Reg) (nn : Byte) (s : State) : exec (.ldImm x nn) s = execLdImm x nn s := rfl
@[simp] theorem exec_addImm (x : Reg) (nn : Byte) (s : State) : exec (.addImm x nn) s = execAddImm x nn s := rfl
@[simp] theorem exec_ldReg (x y : Reg) (s : State) : exec (.ldReg x y) s = execLdReg x y s := rfl
@[simp] theorem exec_orReg (x y : Reg) (s : State) : exec (.orReg x y) s = execOrReg x y s := rfl
@[simp] theorem exec_andReg (x y : Reg) (s : State) : exec (.andReg x y) s = execAndReg x y s := rfl
@[simp] theorem exec_xorReg (x y : Reg) (s : State) : exec (.xorReg x y) s = execXorReg x y s := rfl
@[simp] theorem exec_addReg (x y : Reg) (s : State) : exec (.addReg x y) s = execAddReg x y s := rfl
@[simp] theorem exec_subReg (x y : Reg) (s : State) : exec (.subReg x y) s = execSubReg x y s := rfl
@[simp] theorem exec_shr (x y : Reg) (s : State) : exec (.shr x y) s = execShr x y s := rfl
@[simp] theorem exec_subn (x y : Reg) (s : State) : exec (.subn x y) s = execSubn x y s := rfl
@[simp] theorem exec_shl (x y : Reg) (s : State) : exec (.shl x y) s = execShl x y s := rfl
@[simp] theorem exec_sneReg (x y : Reg) (s : State) : exec (.sneReg x y) s = execSneReg x y s := rfl
@[simp] theorem exec_ldI (nnn : Imm12) (s : State) : exec (.ldI nnn) s = execLdI nnn s := rfl
@[simp] theorem exec_jpV0 (nnn : Imm12) (s : State) : exec (.jpV0 nnn) s = execJpV0 nnn s := rfl
@[simp] theorem exec_rnd (x : Reg) (nn : Byte) (s : State) : exec (.rnd x nn) s = execRnd x nn s := rfl
@[simp] theorem exec_drw (x y : Reg) (n : Fin 16) (s : State) : exec (.drw x y n) s = execDrw x y n s := rfl
@[simp] theorem exec_skp (x : Reg) (s : State) : exec (.skp x) s = execSkp x s := rfl
@[simp] theorem exec_sknp (x : Reg) (s : State) : exec (.sknp x) s = execSknp x s := rfl
@[simp] theorem exec_ldVxDt (x : Reg) (s : State) : exec (.ldVxDt x) s = execLdVxDt x s := rfl
@[simp] theorem exec_ldVxK (x : Reg) (s : State) : exec (.ldVxK x) s = execLdVxK x s := rfl
@[simp] theorem exec_ldDtVx (x : Reg) (s : State) : exec (.ldDtVx x) s = execLdDtVx x s := rfl
@[simp] theorem exec_ldStVx (x : Reg) (s : State) : exec (.ldStVx x) s = execLdStVx x s := rfl
@[simp] theorem exec_addI (x : Reg) (s : State) : exec (.addI x) s = execAddI x s := rfl
@[simp] theorem exec_ldF (x : Reg) (s : State) : exec (.ldF x) s = execLdF x s := rfl
@[simp] theorem exec_ldB (x : Reg) (s : State) : exec (.ldB x) s = execLdB x s := rfl
@[simp] theorem exec_storeRegs (x : Reg) (s : State) : exec (.storeRegs x) s = execStoreRegs x s := rfl
@[simp] theorem exec_loadRegs (x : Reg) (s : State) : exec (.loadRegs x) s = execLoadRegs x s := rfl

/-! ### The step -/

/-- Everything a step that answers `t` can have done: nothing on a faulted core, one instruction, or an unrecognised word. -/
theorem step_cases {s t : State} (h : step s = .next t) :
    (s.faultReg ≠ .none ∧ t = s) ∨
    (s.faultReg = .none ∧ ∃ i, decodeWord (fetchWord s) = .instr i ∧ exec i (advancePc s) = .next t) ∨
    (s.faultReg = .none ∧ (∃ r, decodeWord (fetchWord s) = .reject r) ∧ t = advancePc s) := by
  unfold step at h
  split at h
  · next hh => cases h; exact .inl ⟨by simpa [halted] using hh, rfl⟩
  · next hh =>
    have hn : s.faultReg = .none := by simpa [halted] using hh
    split at h
    · next i hi => exact .inr (.inl ⟨hn, i, hi, h⟩)
    · next r hr => cases h; exact .inr (.inr ⟨hn, ⟨r, hr⟩, rfl⟩)

/-- Raising a fault after the fetch leaves the state before the step, with FAULT set (R92). -/
theorem raiseFault_advancePc (c : FaultCause) (s : State) : raiseFault c (advancePc s) = setFault s c := by
  simp [raiseFault, rewindPc, advancePc, setPc, setFault]

end Sys2Proof.Machine
end

