-- ==== Sys2Proof/Tests/Slice0.lean ====
section
/-! SUPPORT. Tests: the spec's own vectors (95_test_vectors.md; each comment names its table), words written out from the patterns
of 30_encoding.md R46, the smoke test of well-formedness, and, for every obligation that has hypotheses, a state and operands
that meet them (`test_witness_…`). -/

namespace Sys2Proof.Tests

open Sys2Proof.Machine

/-! ### Helpers -/

/-- The reset state with some registers set. -/
def start (regs : List (Reg × Byte)) : State := regs.foldl (fun s p => writeV s p.1 p.2) State.reset

/-- `s` with bytes at consecutive addresses from `a`. -/
def poke (s : State) (a : Nat) (bytes : List Byte) : State := setMem s (loadBytes s.mem a bytes)

/-- `s` with the word `w` where step fetches next. -/
def withWord (s : State) (w : Word) : State := s.withFetchWord 16 w.toNat

/-- One step on the word `w` reaches a next state that passes `p`. -/
def stepTo (s : State) (w : Word) (p : State → Bool) : Bool :=
  match step (withWord s w) with
  | .next t => p t
  | _ => false

/-- `s` with the keys in `ks` pressed and no other. -/
def press (s : State) (ks : List (Fin 16)) : State := setKeys (Vector.ofFn fun j => ks.contains j) s

/-- The pixels (row, column) of `on` are set and those of `off` are clear. -/
def shows (d : Display) (on off : List (Fin 32 × Fin 64)) : Bool :=
  on.all (fun p => pixel d p.1 p.2) && off.all (fun p => !pixel d p.1 p.2)

/-- A display with one pixel set. -/
def onePixel (y : Fin 32) (x : Fin 64) : Display := togglePixel clearDisplay y x

/-- The three bytes at an address. -/
def bytesAt (s : State) (a : Nat) : List Byte := [memRead s.mem a, memRead s.mem (a + 1), memRead s.mem (a + 2)]

/-! ### Well-formedness: the words 00E0 and 00EE are not SYS (R46) -/

theorem test_wellFormed_rejects_sys_0E0 : (Instr.sys 0x0E0).wellFormed = false := by decide
theorem test_wellFormed_rejects_sys_0EE : (Instr.sys 0x0EE).wellFormed = false := by decide
theorem test_wellFormed_accepts_sys_neighbours :
    (Instr.sys 0x0E1).wellFormed = true ∧ (Instr.sys 0x0EF).wellFormed = true := by decide

/-! ### Decoding: words written out from R46's patterns, every constructor -/

theorem test_decode_family_0 : decodeWord 0x0123 = .instr (.sys 0x123) ∧ decodeWord 0x00E0 = .instr .cls ∧
    decodeWord 0x00EE = .instr .ret := by decide
theorem test_decode_addresses : decodeWord 0x1ABC = .instr (.jp 0xABC) ∧ decodeWord 0x2ABC = .instr (.call 0xABC) ∧
    decodeWord 0xA300 = .instr (.ldI 0x300) ∧ decodeWord 0xB300 = .instr (.jpV0 0x300) := by decide
theorem test_decode_immediates : decodeWord 0x332A = .instr (.seImm 3 0x2A) ∧ decodeWord 0x432A = .instr (.sneImm 3 0x2A) ∧
    decodeWord 0x6A2F = .instr (.ldImm 0xA 0x2F) ∧ decodeWord 0x7A02 = .instr (.addImm 0xA 0x02) ∧
    decodeWord 0xC30F = .instr (.rnd 3 0x0F) := by decide
theorem test_decode_register_skips : decodeWord 0x5120 = .instr (.seReg 1 2) ∧
    decodeWord 0x9120 = .instr (.sneReg 1 2) := by decide
theorem test_decode_family_8_logic : decodeWord 0x8120 = .instr (.ldReg 1 2) ∧ decodeWord 0x8121 = .instr (.orReg 1 2) ∧
    decodeWord 0x8122 = .instr (.andReg 1 2) ∧ decodeWord 0x8123 = .instr (.xorReg 1 2) := by decide
theorem test_decode_family_8_arith : decodeWord 0x8124 = .instr (.addReg 1 2) ∧ decodeWord 0x8125 = .instr (.subReg 1 2) ∧
    decodeWord 0x8126 = .instr (.shr 1 2) ∧ decodeWord 0x8127 = .instr (.subn 1 2) ∧
    decodeWord 0x812E = .instr (.shl 1 2) := by decide
theorem test_decode_drw : decodeWord 0xD235 = .instr (.drw 2 3 5) := by decide
theorem test_decode_family_E : decodeWord 0xE59E = .instr (.skp 5) ∧ decodeWord 0xE5A1 = .instr (.sknp 5) := by decide
theorem test_decode_family_F_timers : decodeWord 0xF307 = .instr (.ldVxDt 3) ∧ decodeWord 0xF30A = .instr (.ldVxK 3) ∧
    decodeWord 0xF315 = .instr (.ldDtVx 3) ∧ decodeWord 0xF318 = .instr (.ldStVx 3) := by decide
theorem test_decode_family_F_index : decodeWord 0xF01E = .instr (.addI 0) ∧ decodeWord 0xFA29 = .instr (.ldF 0xA) ∧
    decodeWord 0xF733 = .instr (.ldB 7) ∧ decodeWord 0xF155 = .instr (.storeRegs 1) ∧
    decodeWord 0xF265 = .instr (.loadRegs 2) := by decide
/-- L2-1: unrecognised words. -/
theorem test_decode_unrecognized : decodeWord 0x5121 = .reject (.unrecognized 0x5121) ∧
    decodeWord 0x8128 = .reject (.unrecognized 0x8128) ∧ decodeWord 0x912F = .reject (.unrecognized 0x912F) ∧
    decodeWord 0xE1FF = .reject (.unrecognized 0xE1FF) ∧ decodeWord 0xF0FF = .reject (.unrecognized 0xF0FF) := by decide
theorem test_decode_truncated : decodeBytes [] = .reject .truncated ∧ decodeBytes [0x12] = .reject .truncated := by decide

/-! ### Steps (L2-1) -/

theorem test_step_bigEndian : stepTo (start []) 0x6A2F (fun t => readV t 0xA == 0x2F && t.pc == 0x202) = true := by decide
theorem test_step_unrecognized : stepTo (start [(1, 7)]) 0x5121 (fun t => t.pc == 0x202 && readV t 1 == 7) = true := by decide
/-- PC = 0xFFF: the low byte is M[0x000] (decision D9). -/
theorem test_step_fetch_wraps :
    stepTo (setPc (start []) 0xFFF) 0x6012 (fun t => readV t 0 == 0x12 && t.pc == 0x1001) = true ∧
    memRead (withWord (setPc (start []) 0xFFF) 0x6012).mem 0 = 0x12 := by decide
theorem test_step_odd_pc : stepTo (setPc (start []) 0x201) 0x6B07 (fun t => readV t 0xB == 7 && t.pc == 0x203) = true := by decide

/-! ### Display (L2-2) -/

theorem test_cls : stepTo (setDisplay (start []) (onePixel 31 63)) 0x00E0
    (fun t => shows t.display [] [(31, 63), (0, 0)] && t.pc == 0x202) = true := by decide
/-- Clip on the right, wrap at the bottom; a collision; a set bit beside a set pixel is none. -/
theorem test_drw_pixels :
    stepTo (setI (poke (start [(2, 60), (3, 31)]) 0x300 [0x81, 0xFF]) 0x300) 0xD232 (fun t => readV t vf == 0 &&
      shows t.display [(31, 60), (0, 60), (0, 63)] [(31, 61), (0, 0), (0, 3), (1, 60)]) = true ∧
    stepTo (setI (poke (setDisplay (start []) (onePixel 0 3)) 0x300 [0x10]) 0x300) 0xD011
      (fun t => shows t.display [] [(0, 3)] && readV t vf == 1) = true ∧
    stepTo (setI (poke (setDisplay (start []) (onePixel 0 3)) 0x300 [0x01]) 0x300) 0xD011
      (fun t => shows t.display [(0, 3), (0, 7)] [(0, 0)] && readV t vf == 0) = true := by decide
/-- VF as a coordinate is read before it is cleared (decision D6); N = 0; the sprite's address wraps. -/
theorem test_drw_corners :
    stepTo (setI (poke (start [(vf, 5)]) 0x300 [0x80]) 0x300) 0xDF01
      (fun t => shows t.display [(0, 5)] [(0, 0), (5, 0)] && readV t vf == 0) = true ∧
    stepTo (start [(vf, 0x33)]) 0xD010 (fun t => shows t.display [] [(0, 0)] && readV t vf == 0) = true ∧
    stepTo (setI (poke (start []) 0xFFF [0x80, 0x80]) 0xFFF) 0xD012
      (fun t => shows t.display [(0, 0), (1, 0)] [(0, 1)]) = true := by decide

/-! ### Control transfer (L2-3) -/

theorem test_sys : stepTo (start []) 0x0123 (fun t => t.pc == 0x202 && t.sp == 0) = true := by decide
theorem test_jp : stepTo (start []) 0x1ABC (fun t => t.pc == 0xABC) = true := by decide
theorem test_call_last_entry : stepTo (setSp (start []) 15) 0x2ABC
    (fun t => t.stack[15] == 0x202 && t.sp == 16 && t.pc == 0xABC) = true := by decide
theorem test_call_overflow : stepTo (setSp (start []) 16) 0x2ABC
    (fun t => t.faultReg == .stackOverflow && t.pc == 0x200 && t.sp == 16 && t.stack[15] == 0) = true := by decide
theorem test_ret : stepTo (setSp (setStack (start []) (Vector.replicate 16 0x456)) 1) 0x00EE
    (fun t => t.pc == 0x456 && t.sp == 0 && t.stack[0] == 0x456) = true := by decide
theorem test_ret_underflow : stepTo (start []) 0x00EE
    (fun t => t.faultReg == .stackUnderflow && t.pc == 0x200 && t.sp == 0) = true := by decide
theorem test_jpV0_unmasked : stepTo (start [(0, 0xFF)]) 0xBFFF (fun t => t.pc == 0x10FE) = true := by decide
theorem test_seImm : stepTo (start [(3, 0x2A)]) 0x332A (fun t => t.pc == 0x204) = true ∧
    stepTo (start [(3, 0x2B)]) 0x332A (fun t => t.pc == 0x202) = true := by decide
theorem test_sneImm : stepTo (start [(3, 0x2B)]) 0x432A (fun t => t.pc == 0x204) = true ∧
    stepTo (start [(3, 0x2A)]) 0x432A (fun t => t.pc == 0x202) = true := by decide
theorem test_seReg : stepTo (start [(1, 7), (2, 7)]) 0x5120 (fun t => t.pc == 0x204) = true ∧
    stepTo (start [(1, 7), (2, 8)]) 0x5120 (fun t => t.pc == 0x202) = true := by decide
theorem test_sneReg : stepTo (start [(1, 7), (2, 8)]) 0x9120 (fun t => t.pc == 0x204) = true ∧
    stepTo (start []) 0x9110 (fun t => t.pc == 0x202) = true := by decide

/-! ### Loads and ALU (L1-2, L1-3, L2-4) -/

theorem test_ldImm : stepTo (start []) 0x6F77 (fun t => readV t vf == 0x77) = true := by decide
theorem test_addImm_no_flag : stepTo (start [(0xA, 0xFF), (vf, 7)]) 0x7A02
    (fun t => readV t 0xA == 1 && readV t vf == 7) = true := by decide
theorem test_ldReg : stepTo (start [(2, 0x55)]) 0x8120 (fun t => readV t 1 == 0x55) = true := by decide
theorem test_orReg : stepTo (start [(1, 0xF0), (2, 0x0C), (vf, 9)]) 0x8121
    (fun t => readV t 1 == 0xFC && readV t vf == 9) = true := by decide
theorem test_andReg : stepTo (start [(1, 0xF0), (2, 0x3C)]) 0x8122 (fun t => readV t 1 == 0x30) = true := by decide
theorem test_xorReg : stepTo (start [(1, 0xF0), (2, 0x3C)]) 0x8123 (fun t => readV t 1 == 0xCC) = true := by decide
theorem test_addReg_carry : stepTo (start [(1, 0xFF), (2, 1), (vf, 0x5A)]) 0x8124
    (fun t => readV t 1 == 0 && readV t vf == 1) = true := by decide
/-- With Y = F the old VF is the operand (decision D6). -/
theorem test_addReg_reads_vf_first : stepTo (start [(vf, 2), (1, 3)]) 0x81F4
    (fun t => readV t 1 == 5 && readV t vf == 0) = true := by decide
theorem test_subReg_borrow : stepTo (start [(1, 5), (2, 10)]) 0x8125
    (fun t => readV t 1 == 251 && readV t vf == 0) = true := by decide
/-- Equal operands: VF = 0 (conflict C3, decision D8). -/
theorem test_subReg_equal : stepTo (start [(1, 7), (2, 7), (vf, 9)]) 0x8125
    (fun t => readV t 1 == 0 && readV t vf == 0) = true := by decide
theorem test_shr_takes_vy : stepTo (start [(1, 0x33), (2, 5)]) 0x8126
    (fun t => readV t 1 == 2 && readV t vf == 1 && readV t 2 == 5) = true := by decide
/-- With X = F the flag overwrites the result (decision D6). -/
theorem test_shr_into_vf : stepTo (start [(2, 3)]) 0x8F26 (fun t => readV t vf == 1) = true := by decide
theorem test_subn : stepTo (start [(1, 5), (2, 10)]) 0x8127 (fun t => readV t 1 == 5 && readV t vf == 1) = true ∧
    stepTo (start [(1, 10), (2, 5)]) 0x8127 (fun t => readV t 1 == 251 && readV t vf == 0) = true := by decide
theorem test_shl_takes_vy : stepTo (start [(2, 0x81)]) 0x812E
    (fun t => readV t 1 == 2 && readV t vf == 1 && readV t 2 == 0x81) = true := by decide
theorem test_shl_no_carry : stepTo (start [(2, 0x40), (vf, 9)]) 0x812E
    (fun t => readV t 1 == 0x80 && readV t vf == 0) = true := by decide
/-- The mask 00 leaves nothing of any random byte. -/
theorem test_rnd_zero_mask (s : State) : ∃ t, exec (.rnd 3 0) s = .next t ∧ readV t 3 = 0 ∧ t.draws = s.draws + 1 :=
  ⟨_, rfl, by simp [readV, writeV], rfl⟩

/-! ### Index and memory (L2-5) -/

theorem test_ldI : stepTo (start []) 0xAFFF (fun t => t.i == 0xFFF) = true := by decide
theorem test_addI_wraps : stepTo (setI (start [(0, 0xFF), (vf, 9)]) 0xFFF0) 0xF01E
    (fun t => t.i == 0x00EF && readV t vf == 9) = true := by decide
theorem test_addI_unmasked : stepTo (setI (start [(0, 2)]) 0xFFF) 0xF01E (fun t => t.i == 0x1001) = true := by decide
theorem test_ldF : stepTo (start [(0xA, 0xA)]) 0xFA29 (fun t => t.i == 0x082) = true := by decide
theorem test_ldF_unmasked : stepTo (start [(0, 0xFF)]) 0xF029 (fun t => t.i == 0x54B) = true := by decide
theorem test_ldB : stepTo (setI (start [(0, 245)]) 0x300) 0xF033
    (fun t => bytesAt t 0x300 == [2, 4, 5] && t.i == 0x300) = true := by decide
theorem test_ldB_wraps : stepTo (setI (start [(0, 123)]) 0xFFF) 0xF033
    (fun t => memRead t.mem 0xFFF == 1 && memRead t.mem 0 == 2 && memRead t.mem 1 == 3) = true := by decide
theorem test_storeRegs : stepTo (setI (start [(0, 0x81), (1, 0xFF), (2, 0x77)]) 0x300) 0xF155
    (fun t => bytesAt t 0x300 == [0x81, 0xFF, 0] && t.i == 0x300) = true := by decide
theorem test_loadRegs : stepTo (setI (poke (start [(3, 0x77)]) 0x300 [2, 4, 5, 6]) 0x300) 0xF265
    (fun t => readV t 0 == 2 && readV t 1 == 4 && readV t 2 == 5 && readV t 3 == 0x77 && t.i == 0x300) = true := by decide
theorem test_loadRegs_wraps : stepTo (setI (poke (start []) 0 [0x42]) 0x1000) 0xF065
    (fun t => readV t 0 == 0x42) = true := by decide

/-! ### Keys and timers (L1-6, L2-6) -/

theorem test_skp : stepTo (press (start [(5, 0xC)]) [0xC]) 0xE59E (fun t => t.pc == 0x204) = true ∧
    stepTo (start [(5, 0xC)]) 0xE59E (fun t => t.pc == 0x202) = true := by decide
theorem test_skp_key_range : stepTo (start [(5, 0x10)]) 0xE59E
    (fun t => t.faultReg == .keyRange && t.pc == 0x200) = true := by decide
theorem test_sknp : stepTo (start [(5, 0xC)]) 0xE5A1 (fun t => t.pc == 0x204) = true ∧
    stepTo (press (start [(5, 0xC)]) [0xC]) 0xE5A1 (fun t => t.pc == 0x202) = true := by decide
theorem test_sknp_key_range : stepTo (start [(5, 0xFF)]) 0xE5A1
    (fun t => t.faultReg == .keyRange && t.pc == 0x200) = true := by decide
theorem test_ldVxDt : stepTo (setDt (start []) 0x3C) 0xF307 (fun t => readV t 3 == 0x3C && t.dt == 0x3C) = true := by decide
theorem test_ldVxK_waits : stepTo (start [(0, 9)]) 0xF00A (fun t => t.pc == 0x200 && readV t 0 == 9) = true := by decide
theorem test_ldVxK_least : stepTo (press (start []) [3, 7]) 0xF00A (fun t => readV t 0 == 3 && t.pc == 0x202) = true := by decide
theorem test_ldDtVx : stepTo (start [(3, 0x3C)]) 0xF315 (fun t => t.dt == 0x3C && t.st == 0) = true := by decide
theorem test_ldStVx : stepTo (start [(3, 5)]) 0xF318 (fun t => t.st == 5 && t.dt == 0) = true := by decide

/-! ### Host operations (L1-9, L2-6, L2-7) -/

theorem test_tick : (tick (setDt (start []) 2)).dt = 1 ∧ (tick (setDt (start []) 2)).st = 0 := by decide
theorem test_tick_faulted : (tick (setDt (setFault (start []) .stackOverflow) 4)).dt = 3 := by decide
theorem test_setKeys_faulted : (press (setFault (start []) .keyRange) [1]).keys[1] = true ∧
    (press (setFault (start []) .keyRange) [1]).faultReg = .keyRange := by decide
theorem test_faulted_step : step (setFault (poke (start []) 0x200 [0x6A, 0x2F]) .stackUnderflow) =
    .next (setFault (poke (start []) 0x200 [0x6A, 0x2F]) .stackUnderflow) := rfl
theorem test_getPx : getPx (setDisplay (start []) (onePixel 31 63)) (-1) (-1) = true ∧
    getPx (setDisplay (start []) (onePixel 5 10)) 202 (-27) = true ∧
    getPx (setDisplay (start []) (onePixel 0 0)) 64 32 = true ∧
    getPx (setDisplay (start []) (onePixel 0 0)) 1 0 = false := by decide
theorem test_init_loads : (match State.init [0x12, 0x00] with
    | .ok t => memRead t.mem 0x200 == 0x12 && t.pc == 0x200 && memRead t.mem 0x202 == 0
    | .error _ => false) = true := by decide
theorem test_init_rejects : State.init (List.replicate 3585 0) = .error .sizeLimit := by
  rw [State.init, List.length_replicate]; rfl

/-! ### The host's questions -/

/-- The first instruction after reset is the one placed there. -/
theorem test_withFetchWord : fetchWord (State.reset.withFetchWord 16 0xD235) = 0xD235 ∧
    decodeTableWord 16 0xD235 = some (.drw 2 3 5) ∧ decodeTableWord 16 0x5121 = none := by decide

/-! ### Witnesses: states and operands that meet the hypotheses of the obligations -/

theorem test_witness_init : ([] : List Byte).length ≤ 3584 ∧ (List.replicate 3584 (0xFF : Byte)).length ≤ 3584 := by
  rw [List.length_replicate]; decide
theorem test_witness_oversize : 3584 < (List.replicate 3585 (0xFF : Byte)).length := by
  rw [List.length_replicate]; decide
theorem test_witness_wellFormed : (Instr.sys 0xFFF).wellFormed = true ∧ (Instr.drw 0xF 0xF 0xF).wellFormed = true := by decide
theorem test_witness_decoded : decodeWord 0xFFFE = .reject (.unrecognized 0xFFFE) ∧
    decodeWord 0xDFFF = .instr (.drw 0xF 0xF 0xF) ∧ decodeWord 0x0000 = .instr (.sys 0) := by decide
theorem test_witness_step : (poke State.reset 0x200 [0x6A, 0x2F]).faultReg = .none ∧
    decodeBytes [memRead (poke State.reset 0x200 [0x6A, 0x2F]).mem 0x200, memRead (poke State.reset 0x200 [0x6A, 0x2F]).mem 0x201] =
      .instr (.ldImm 0xA 0x2F) := by decide
/-- Every alternative of `UnrecognizedWord` at its bounds. -/
theorem test_witness_unrecognized_58 : UnrecognizedWord 0x5001 ∧ UnrecognizedWord 0x8008 ∧ UnrecognizedWord 0x800D ∧
    UnrecognizedWord 0x800F :=
  ⟨by decide, by decide, by decide, by decide⟩
theorem test_witness_unrecognized_9EF : UnrecognizedWord 0x9FFF ∧ UnrecognizedWord 0xE09D ∧ UnrecognizedWord 0xF066 :=
  ⟨by decide, by decide, by decide⟩
/-- Words next to them that are instructions. -/
theorem test_witness_recognized_58 : ¬ UnrecognizedWord 0x5000 ∧ ¬ UnrecognizedWord 0x8007 ∧ ¬ UnrecognizedWord 0x800E :=
  ⟨by decide, by decide, by decide⟩
theorem test_witness_recognized_9EF : ¬ UnrecognizedWord 0x9FF0 ∧ ¬ UnrecognizedWord 0xE09E ∧ ¬ UnrecognizedWord 0xF065 :=
  ⟨by decide, by decide, by decide⟩
theorem test_witness_unrecognized_fetched : (withWord State.reset 0x5001).faultReg = .none ∧
    UnrecognizedWord (fetchWord (withWord State.reset 0x5001)) := by decide
theorem test_witness_fetch_wraps : (setPc State.reset 0x1FFF).mem = (setPc State.reset 0xFFF).mem ∧
    (setPc State.reset 0x1FFF).pc.toNat % 4096 = (setPc State.reset 0xFFF).pc.toNat % 4096 := by decide
/-- Steps that raise each of the three faults (FaultingStepIsUndone, EachFaultHasExactlyItsCause). -/
theorem test_witness_faulting_steps :
    stepTo State.reset 0x00EE (fun t => t.faultReg == .stackUnderflow) = true ∧
    stepTo (setSp State.reset 16) 0x2000 (fun t => t.faultReg == .stackOverflow) = true ∧
    stepTo (start [(0, 16)]) 0xE09E (fun t => t.faultReg == .keyRange) = true ∧
    stepTo (start [(0, 16)]) 0xE0A1 (fun t => t.faultReg == .keyRange) = true := by decide
/-- A faulted core, and a run from it (FaultedCoreStepsInPlace, NoRunLeavesAFault, QuiescentStatesStay). -/
theorem test_witness_faulted : Faulted (setFault State.reset .keyRange) ∧
    ∃ t, runOps [.tick, .step, .setKeys (Vector.replicate 16 true)] (setFault State.reset .keyRange) = .next t :=
  ⟨by decide, _, rfl⟩
theorem test_witness_selfLoop : SelfLoop (withWord State.reset 0x1200) ∧
    SelfLoop (withWord (setPc State.reset 0xFFF) 0x1FFF) ∧ SelfLoop (withWord (setPc State.reset 0) 0x1000) := by decide
theorem test_witness_waiting : WaitingForKey (withWord State.reset 0xFF0A) := by decide
theorem test_witness_inv : Inv State.reset ∧ Inv (withWord State.reset 0xF055) ∧
    (∃ t, step (withWord State.reset 0xF055) = .next t) ∧ ∃ t, applyOp .tick State.reset = .next t :=
  ⟨by decide, by decide, ⟨_, rfl⟩, ⟨_, rfl⟩⟩
theorem test_witness_loaded : ∃ t, State.init [0x12, 0x00] = .ok t := ⟨_, rfl⟩
theorem test_witness_canonical : memWf [(0x300, 1), (0xFFF, 2)] = true := by decide
/-- Sprite bits that are drawn, on a pixel that was set and one that was clear, and a bit that is clipped. -/
theorem test_witness_drw :
    SpriteCovers (setI (poke (start [(2, 63), (3, 31)]) 0x300 [0x80]) 0x300) 2 3 1 31 63 ∧
    pixel (onePixel 31 63) 31 63 = true ∧
    stepTo (setI (poke (setDisplay (start [(2, 63), (3, 31)]) (onePixel 31 63)) 0x300 [0x80]) 0x300) 0xD231
      (fun t => readV t vf == 1) = true ∧
    stepTo (setI (poke (start [(2, 63), (3, 31)]) 0x300 [0x7F]) 0x300) 0xD231
      (fun t => readV t vf == 0 && shows t.display [] [(31, 63), (31, 0)]) = true :=
  ⟨⟨0, 0, by decide⟩, by decide, by decide, by decide⟩
theorem test_witness_drw_twice : ∃ t u, exec (.drw 0 vf 1) (setI (poke State.reset 0x300 [0x80]) 0x300) = .next t ∧
    readV t 0 = readV (setI (poke State.reset 0x300 [0x80]) 0x300) 0 ∧
    readV t vf = readV (setI (poke State.reset 0x300 [0x80]) 0x300) vf ∧ exec (.drw 0 vf 1) t = .next u :=
  ⟨_, _, rfl, by decide, by decide, rfl⟩
theorem test_witness_ret : (setSp State.reset 1).sp.val = (0 : Fin 16).val + 1 ∧
    (setSp State.reset 16).sp.val = (15 : Fin 16).val + 1 ∧
    (withWord State.reset 0x00EE).faultReg = .none ∧ fetchWord (withWord State.reset 0x00EE) = 0x00EE ∧
    (withWord State.reset 0x00EE).sp = 0 := by decide
/-- CallPushesOrOverflows and RetAfterCallReturns: the first entry, the last, and no room. -/
theorem test_witness_call : (setSp State.reset 0).sp.val = (0 : Fin 16).val ∧ (setSp State.reset 15).sp.val = (15 : Fin 16).val ∧
    (withWord (setSp State.reset 16) 0x2FFF).faultReg = .none ∧
    fetchWord (withWord (setSp State.reset 16) 0x2FFF) = wordA 0x2 0xFFF ∧
    (withWord (setSp State.reset 16) 0x2FFF).sp = 16 := by decide
/-- Both outcomes of the four skips, and the bounds of N ≠ 0. -/
theorem test_witness_skips : (1 : BitVec 4) ≠ 0 ∧ (0xF : BitVec 4) ≠ 0 ∧ readV State.reset 0xF = 0x00 ∧ readV State.reset 0xF ≠ 0xFF ∧
    readV (start [(0xF, 1)]) 0 = readV (start [(0xF, 1)]) 1 ∧ readV (start [(0xF, 1)]) 0 ≠ readV (start [(0xF, 1)]) 0xF := by
  decide
/-- ALU results that are not the flag, and the bounds of the carry and of the strict comparison. -/
theorem test_witness_alu : (0xE : Reg) ≠ vf ∧
    (readV (start [(0, 0xFF), (1, 1)]) 0).toNat + (readV (start [(0, 0xFF), (1, 1)]) 1).toNat > 255 ∧
    ¬ (readV (start [(0, 0xFE), (1, 1)]) 0).toNat + (readV (start [(0, 0xFE), (1, 1)]) 1).toNat > 255 ∧
    (readV (start [(0, 1)]) 0).toNat > (readV (start [(0, 1)]) 1).toNat ∧
    ¬ (readV (start [(0, 1), (1, 1)]) 0).toNat > (readV (start [(0, 1), (1, 1)]) 1).toNat := by decide
/-- Addresses a store leaves alone, beside its first and last byte and across the wrap (LdB, StoreRegs). -/
theorem test_witness_stores :
    (∀ k, k < 3 → 0x303 % 4096 ≠ indexAddr (setI State.reset 0x300) k % 4096) ∧
    (∀ k, k < 3 → 0xFFE % 4096 ≠ indexAddr (setI State.reset 0xFFF) k % 4096) ∧
    (∀ k : Reg, k ≤ 0xF → 0x310 % 4096 ≠ indexAddr (setI State.reset 0x300) k.val % 4096) ∧
    (∀ k : Reg, k ≤ 0 → 1 % 4096 ≠ indexAddr (setI State.reset 0x1000) k.val % 4096) := by decide
/-- Two stores, of all registers and of one; the state after each has that memory and the same I. -/
theorem test_witness_restore : (∃ t, exec (.storeRegs 0xF) (setI State.reset 0x300) = .next t ∧ t.i = 0x300) ∧
    ∃ t, exec (.storeRegs 0) (setI State.reset 0xFFF) = .next t ∧ t.i = 0xFFF :=
  ⟨⟨_, rfl, rfl⟩, ⟨_, rfl, rfl⟩⟩
/-- The first glyph and the last, on a machine whose font region is as reset left it. -/
theorem test_witness_glyph : (readV (start [(3, 15)]) 3).toNat ≤ 15 ∧ (readV (start [(3, 0)]) 3).toNat ≤ 15 ∧
    (∀ j, j < 80 → memRead (start [(3, 15)]).mem (0x050 + j) = fontByte j) ∧ ∃ t, exec (.ldF 3) (start [(3, 15)]) = .next t :=
  ⟨by decide, by decide, by decide, _, rfl⟩
theorem test_witness_next_fetch : 1 ≤ (1 : Reg).val ∧
    (setI State.reset 0x1200).i.toNat % 4096 = (setI State.reset 0x1200).pc.toNat % 4096 ∧
    ∃ t, exec (.storeRegs 1) (setI State.reset 0x1200) = .next t :=
  ⟨by decide, by decide, _, rfl⟩
/-- SKP and SKNP: the first key, the last, pressed and released, and the first number out of range. -/
theorem test_witness_keys : (readV (start [(0, 15)]) 0).toNat = (15 : Fin 16).val ∧
    (readV State.reset 0).toNat = (0 : Fin 16).val ∧ (press State.reset [15]).keys[15] = true ∧ State.reset.keys[0] = false ∧
    (withWord (start [(0, 16)]) 0xE09E).faultReg = .none ∧ fetchWord (withWord (start [(0, 16)]) 0xE09E) = wordRI 0xE 0 0x9E ∧
    (readV (withWord (start [(0, 16)]) 0xE09E) 0).toNat > 15 ∧
    fetchWord (withWord (start [(0, 16)]) 0xE0A1) = wordRI 0xE 0 0xA1 := by decide
/-- FX0A: only the last key, the first key with others, and no key. -/
theorem test_witness_wait :
    ((press State.reset [15]).keys[15] = true ∧ ∀ j : Fin 16, j < 15 → (press State.reset [15]).keys[j] = false) ∧
    ((press State.reset [0, 5]).keys[0] = true ∧ ∀ j : Fin 16, j < 0 → (press State.reset [0, 5]).keys[j] = false) ∧
    (∀ j : Fin 16, (withWord State.reset 0xF30A).keys[j] = false) ∧ (withWord State.reset 0xF30A).faultReg = .none ∧
    fetchWord (withWord State.reset 0xF30A) = wordRI 0xF 3 0x0A := by decide
theorem test_witness_pixel : ((64 : Int) ∣ -1 - (63 : Fin 64).val ∧ (32 : Int) ∣ -1 - (31 : Fin 32).val) ∧
    ((64 : Int) ∣ 64 - (0 : Fin 64).val ∧ (32 : Int) ∣ 32 - (0 : Fin 32).val) := by decide
/-- The bytes outside font and the bytes of the font (ResetGivesEveryElementItsValue). -/
theorem test_witness_reset_memory : (0x04F < 4096 ∧ ¬ (0x050 ≤ 0x04F ∧ 0x04F < 0x0A0)) ∧
    (0x0A0 < 4096 ∧ ¬ (0x050 ≤ 0x0A0 ∧ 0x0A0 < 0x0A0)) ∧ 79 < 80 := by decide
/-- An instruction that answers a next state and changes VF (OnlyTheNamedElementsAreWritten, FlagRegisterWriters). -/
theorem test_witness_flag : ∃ t, exec (.addReg 1 2) (start [(vf, 9)]) = .next t ∧ readV t vf ≠ readV (start [(vf, 9)]) vf :=
  ⟨_, rfl, by decide⟩
/-- A step that draws a byte and one that does not. -/
theorem test_witness_draw : (withWord State.reset 0xC3FF).faultReg = .none ∧
    decodeWord (fetchWord (withWord State.reset 0xC3FF)) = .instr (.rnd 3 0xFF) ∧
    decodeWord (fetchWord (withWord State.reset 0x6000)) = .instr (.ldImm 0 0) ∧
    (∃ t, step (withWord State.reset 0xC3FF) = .next t) ∧ ∃ t, step (withWord State.reset 0x6000) = .next t :=
  ⟨by decide, by decide, by decide, ⟨_, rfl⟩, ⟨_, rfl⟩⟩
theorem test_witness_sound : ∃ t, step (withWord State.reset 0xF318) = .next t := ⟨_, rfl⟩
/-- Entries at or above SP that differ, for an empty stack and for one entry in use. -/
theorem test_witness_popped :
    (∀ k : Fin 16, k.val < State.reset.sp.val → (Vector.replicate 16 (0xFFFF : Word))[k] = State.reset.stack[k]) ∧
    (∀ k : Fin 16, k.val < (setSp State.reset 1).sp.val →
      ((Vector.replicate 16 (0xFFFF : Word)).set 0 0)[k] = (setSp State.reset 1).stack[k]) ∧
    ∃ t, step (withWord (setSp State.reset 1) 0x00EE) = .next t :=
  ⟨by decide, by decide, _, rfl⟩

end Sys2Proof.Tests
end

section
/-! SUPPORT. Frames: what each update of the state leaves unchanged (spec 10_state.md R28; 60_exceptions.md R104). -/

namespace Sys2Proof.Machine

/-! ### Frames compose -/

theorem OnlyChanges.trans {p : Element → Prop} {s t u : State} (hst : OnlyChanges p s t) (htu : OnlyChanges p t u) :
    OnlyChanges p s u :=
  fun e he => (htu e he).trans (hst e he)

theorem Frame.trans {p : Element → Prop} {s t u : State} (hst : Frame p s t) (htu : Frame p t u) : Frame p s u :=
  ⟨hst.1.trans htu.1, Eq.trans htu.2 hst.2⟩

theorem Frame.refl (p : Element → Prop) (s : State) : Frame p s s := ⟨fun _ _ => rfl, rfl⟩

/-! ### One frame per update, for every set of elements that holds what the update writes -/

section Updates

variable {p : Element → Prop} {s : State}

theorem frame_writeV {x : Reg} (b : Byte) (hp : p (.v x)) : Frame p s (writeV s x b) := by
  refine ⟨fun e he => ?_, rfl⟩
  cases e with
  | v r =>
    have hr : r ≠ x := fun e => he (e ▸ hp)
    simp only [inspect, readV_writeV_of_ne s x r b hr]
  | _ => rfl

theorem frame_writeVFlag {x : Reg} (b flag : Byte) (hx : p (.v x)) (hf : p (.v vf)) :
    Frame p s (writeVFlag s x b flag) :=
  (frame_writeV b hx).trans (frame_writeV flag hf)

theorem frame_setRegs {v : Vector Byte 16} (h : ∀ r : Reg, ¬ p (.v r) → v[r] = s.v[r]) : Frame p s (setRegs s v) := by
  refine ⟨fun e he => ?_, rfl⟩
  cases e with
  | v r => exact congrArg BitVec.toNat (h r he)
  | _ => rfl

theorem frame_setI (w : Word) (hp : p .i) : Frame p s (setI s w) := by
  refine ⟨fun e he => ?_, rfl⟩
  cases e with
  | i => exact absurd hp he
  | _ => rfl

theorem frame_setPc (w : Word) (hp : p .pc) : Frame p s (setPc s w) := by
  refine ⟨fun e he => ?_, rfl⟩
  cases e with
  | pc => exact absurd hp he
  | _ => rfl

theorem frame_setDt (b : Byte) (hp : p .dt) : Frame p s (setDt s b) := by
  refine ⟨fun e he => ?_, rfl⟩
  cases e with
  | dt => exact absurd hp he
  | _ => rfl

theorem frame_setSt (b : Byte) (hp : p .st) : Frame p s (setSt s b) := by
  refine ⟨fun e he => ?_, rfl⟩
  cases e with
  | st => exact absurd hp he
  | _ => rfl

theorem frame_setSp (n : Fin 17) (hp : p .sp) : Frame p s (setSp s n) := by
  refine ⟨fun e he => ?_, rfl⟩
  cases e with
  | sp => exact absurd hp he
  | _ => rfl

theorem frame_setStack {entries : Vector Word 16} (h : ∀ k : Fin 16, ¬ p (.s k) → entries[k] = s.stack[k]) :
    Frame p s (setStack s entries) := by
  refine ⟨fun e he => ?_, rfl⟩
  cases e with
  | s k => exact congrArg BitVec.toNat (h k he)
  | _ => rfl

theorem frame_setDisplay {d : Display} (h : ∀ y x, ¬ p (.d y x) → pixel d y x = pixel s.display y x) :
    Frame p s (setDisplay s d) := by
  refine ⟨fun e he => ?_, rfl⟩
  cases e with
  | d y x => exact congrArg Bool.toNat (h y x he)
  | _ => rfl

theorem frame_setMem {m : Memory} (h : ∀ a : Fin 4096, ¬ p (.m a) → memRead m a = memRead s.mem a) :
    Frame p s (setMem s m) := by
  refine ⟨fun e he => ?_, rfl⟩
  cases e with
  | m a => exact congrArg BitVec.toNat (h a he)
  | _ => rfl

theorem frame_setFault (c : FaultCause) (hp : p .fault) : Frame p s (setFault s c) := by
  refine ⟨fun e he => ?_, rfl⟩
  cases e with
  | fault => exact absurd hp he
  | _ => rfl

theorem frame_raiseFault (c : FaultCause) (hpc : p .pc) (hfault : p .fault) : Frame p s (raiseFault c s) :=
  (frame_setPc _ hpc).trans (frame_setFault c hfault)

theorem frame_skipIf (c : Bool) (hp : p .pc) : Frame p s (skipIf c s) := by
  cases c with
  | false => exact .refl p s
  | true => exact frame_setPc _ hp

end Updates

/-- A draw changes no element the host can inspect: the count of draws is the model's own (log 2). -/
theorem onlyChanges_drawRand (p : Element → Prop) (s : State) : OnlyChanges p s (drawRand s).2 := by
  intro e _
  cases e <;> rfl

end Sys2Proof.Machine
end

section
/-! SUPPORT. The instructions with more than one outcome: an equation for each outcome (spec 41_control.md R58, R60;
44_timers_keys.md R84, R85, R87), and what each instruction can make of the state; the same for the step. -/

namespace Sys2Proof.Machine

/-! ### One equation per outcome -/

theorem execRet_of_empty {s : State} (h : s.sp = 0) : execRet s = .next (raiseFault .stackUnderflow s) := by
  rw [execRet, popReturn_empty s h]

theorem execRet_of_pos {s : State} (h : s.sp.val ≠ 0) :
    execRet s = .next (setPc (setSp s ⟨s.sp.val - 1, by omega⟩) s.stack[s.sp.val - 1]) := by
  rw [execRet, popReturn_of_pos s h]

theorem execCall_of_full {s : State} (nnn : Imm12) (h : s.sp = 16) :
    execCall nnn s = .next (raiseFault .stackOverflow s) := by
  rw [execCall, pushReturn_full s _ h]

theorem execCall_of_lt {s : State} (nnn : Imm12) (h : s.sp.val < 16) :
    execCall nnn s = .next (setPc (setSp (setStack s (s.stack.set s.sp.val s.pc)) ⟨s.sp.val + 1, by omega⟩)
      (targetOf nnn)) := by
  rw [execCall, pushReturn_of_lt s _ h]

theorem execSkp_of_none {x : Reg} {s : State} (h : keyIndex (readV s x) = none) :
    execSkp x s = .next (raiseFault .keyRange s) := by
  rw [execSkp, h]

theorem execSkp_of_some {x : Reg} {s : State} {k : Reg} (h : keyIndex (readV s x) = some k) :
    execSkp x s = .next (skipIf s.keys[k] s) := by
  rw [execSkp, h]

theorem execSknp_of_none {x : Reg} {s : State} (h : keyIndex (readV s x) = none) :
    execSknp x s = .next (raiseFault .keyRange s) := by
  rw [execSknp, h]

theorem execSknp_of_some {x : Reg} {s : State} {k : Reg} (h : keyIndex (readV s x) = some k) :
    execSknp x s = .next (skipIf (!s.keys[k]) s) := by
  rw [execSknp, h]

theorem execLdVxK_of_none {x : Reg} {s : State} (h : firstKey s.keys = none) : execLdVxK x s = .next (rewindPc s) := by
  rw [execLdVxK, h]

theorem execLdVxK_of_some {x : Reg} {s : State} {k : Reg} (h : firstKey s.keys = some k) :
    execLdVxK x s = .next (writeV s x (BitVec.ofNat 8 k.val)) := by
  rw [execLdVxK, h]

/-! ### Everything each of them can have done -/

theorem execRet_cases {s t : State} (h : execRet s = .next t) :
    (s.sp = 0 ∧ t = raiseFault .stackUnderflow s) ∨
    ∃ _ : s.sp.val ≠ 0, t = setPc (setSp s ⟨s.sp.val - 1, by omega⟩) s.stack[s.sp.val - 1] := by
  by_cases hsp : s.sp = 0
  · cases (execRet_of_empty hsp).symm.trans h
    exact .inl ⟨hsp, rfl⟩
  · have hpos : s.sp.val ≠ 0 := fun e => hsp (Fin.ext e)
    cases (execRet_of_pos hpos).symm.trans h
    exact .inr ⟨hpos, rfl⟩

theorem execCall_cases {nnn : Imm12} {s t : State} (h : execCall nnn s = .next t) :
    (s.sp = 16 ∧ t = raiseFault .stackOverflow s) ∨
    ∃ hlt : s.sp.val < 16, t = setPc (setSp (setStack s (s.stack.set s.sp.val s.pc)) ⟨s.sp.val + 1, by omega⟩)
      (targetOf nnn) := by
  by_cases hlt : s.sp.val < 16
  · cases (execCall_of_lt nnn hlt).symm.trans h
    exact .inr ⟨hlt, rfl⟩
  · have hsp := (sp_eq_sixteen_iff s).2 hlt
    cases (execCall_of_full nnn hsp).symm.trans h
    exact .inl ⟨hsp, rfl⟩

theorem execSkp_cases {x : Reg} {s t : State} (h : execSkp x s = .next t) :
    (keyIndex (readV s x) = none ∧ t = raiseFault .keyRange s) ∨
    ∃ k, keyIndex (readV s x) = some k ∧ t = skipIf s.keys[k] s := by
  rcases hk : keyIndex (readV s x) with _ | k
  · cases (execSkp_of_none hk).symm.trans h
    exact .inl ⟨rfl, rfl⟩
  · cases (execSkp_of_some hk).symm.trans h
    exact .inr ⟨k, rfl, rfl⟩

theorem execSknp_cases {x : Reg} {s t : State} (h : execSknp x s = .next t) :
    (keyIndex (readV s x) = none ∧ t = raiseFault .keyRange s) ∨
    ∃ k, keyIndex (readV s x) = some k ∧ t = skipIf (!s.keys[k]) s := by
  rcases hk : keyIndex (readV s x) with _ | k
  · cases (execSknp_of_none hk).symm.trans h
    exact .inl ⟨rfl, rfl⟩
  · cases (execSknp_of_some hk).symm.trans h
    exact .inr ⟨k, rfl, rfl⟩

theorem execLdVxK_cases {x : Reg} {s t : State} (h : execLdVxK x s = .next t) :
    (firstKey s.keys = none ∧ t = rewindPc s) ∨
    ∃ k, firstKey s.keys = some k ∧ t = writeV s x (BitVec.ofNat 8 k.val) := by
  rcases hk : firstKey s.keys with _ | k
  · cases (execLdVxK_of_none hk).symm.trans h
    exact .inl ⟨rfl, rfl⟩
  · cases (execLdVxK_of_some hk).symm.trans h
    exact .inr ⟨k, rfl, rfl⟩

/-! ### One equation per kind of step (R45, R47, R93) -/

theorem step_of_faulted {s : State} (hf : s.faultReg ≠ .none) : step s = .next s := by
  simp [step, halted, hf]

theorem step_of_instr {s : State} {i : Instr} (hn : s.faultReg = .none) (hi : decodeWord (fetchWord s) = .instr i) :
    step s = exec i (advancePc s) := by
  simp [step, halted, hn, hi]

theorem step_of_reject {s : State} {r : Reject} (hn : s.faultReg = .none) (hr : decodeWord (fetchWord s) = .reject r) :
    step s = .next (advancePc s) := by
  simp [step, halted, hn, hr, execUnrecognized]

end Sys2Proof.Machine
end

section
/-! PROOF. Every instruction writes only the elements the spec lists it as a writer of (spec 10_state.md R13, R28). -/

namespace Sys2Proof.Machine

/-- An instruction other than CXNN writes only what its row lists and draws nothing (R28, R103). -/
theorem exec_frame {i : Instr} {s t : State} (hrnd : ∀ x nn, i ≠ .rnd x nn) (h : exec i s = .next t) :
    Frame (Writes i) s t := by
  cases i with
  | rnd x nn => exact absurd rfl (hrnd x nn)
  | sys => cases h; exact .refl _ s
  | cls => cases h; exact frame_setDisplay fun y x hd => absurd ⟨y, x, rfl⟩ hd
  | ret =>
    obtain ⟨-, rfl⟩ | ⟨-, rfl⟩ := execRet_cases h
    · exact frame_raiseFault _ (.inl rfl) (.inr (.inr rfl))
    · exact (frame_setSp _ (.inr (.inl rfl))).trans (frame_setPc _ (.inl rfl))
  | call nnn =>
    obtain ⟨-, rfl⟩ | ⟨-, rfl⟩ := execCall_cases h
    · exact frame_raiseFault _ (.inl rfl) (.inr (.inr (.inl rfl)))
    · have hstack : Frame (Writes (.call nnn)) s (setStack s (s.stack.set s.sp.val s.pc)) :=
        frame_setStack fun k hk => absurd (.inr (.inr (.inr ⟨k, rfl⟩))) hk
      exact (hstack.trans (frame_setSp _ (.inr (.inl rfl)))).trans (frame_setPc _ (.inl rfl))
  | jp | jpV0 => cases h; exact frame_setPc _ rfl
  | seImm | sneImm | seReg | sneReg => cases h; exact frame_skipIf _ rfl
  | ldImm | addImm | ldReg | orReg | andReg | xorReg | ldVxDt => cases h; exact frame_writeV _ rfl
  | addReg | subReg | shr | subn | shl => cases h; exact frame_writeVFlag _ _ (.inl rfl) (.inr rfl)
  | ldI | addI | ldF => cases h; exact frame_setI _ rfl
  | drw x y n =>
    cases h
    have hdisplay : Frame (Writes (.drw x y n)) s (setDisplay s (spriteCanvas x y n s).display) :=
      frame_setDisplay fun py px hd => absurd (.inr ⟨py, px, rfl⟩) hd
    exact hdisplay.trans (frame_writeV _ (.inl rfl))
  | skp =>
    obtain ⟨-, rfl⟩ | ⟨k, -, rfl⟩ := execSkp_cases h
    · exact frame_raiseFault _ (.inl rfl) (.inr rfl)
    · exact frame_skipIf _ (.inl rfl)
  | sknp =>
    obtain ⟨-, rfl⟩ | ⟨k, -, rfl⟩ := execSknp_cases h
    · exact frame_raiseFault _ (.inl rfl) (.inr rfl)
    · exact frame_skipIf _ (.inl rfl)
  | ldVxK =>
    obtain ⟨-, rfl⟩ | ⟨k, -, rfl⟩ := execLdVxK_cases h
    · exact frame_setPc _ (.inr rfl)
    · exact frame_writeV _ (.inl rfl)
  | ldDtVx => cases h; exact frame_setDt _ rfl
  | ldStVx => cases h; exact frame_setSt _ rfl
  | ldB | storeRegs => cases h; exact frame_setMem fun a ha => absurd ⟨a, rfl⟩ ha
  | loadRegs x =>
    cases h
    refine frame_setRegs fun r hr => ?_
    rw [loadBlock_get, if_neg fun hmem => hr ⟨r, (mem_regsUpTo x r).1 hmem, rfl⟩]

/-- CXNN draws a byte, which no element shows, and writes its destination (R77). -/
theorem execRnd_onlyChanges (x : Reg) (nn : Byte) {s t : State} (h : execRnd x nn s = .next t) :
    OnlyChanges (only (.v x)) s t := by
  cases h
  exact (onlyChanges_drawRand _ s).trans (frame_writeV (p := only (.v x)) _ rfl).1

/-- Every instruction writes only what its row lists: CXNN by its own lemma, any other by its frame. -/
theorem exec_onlyChanges {i : Instr} {s t : State} (h : exec i s = .next t) : OnlyChanges (Writes i) s t := by
  by_cases hrnd : ∃ x nn, i = .rnd x nn
  · obtain ⟨x, nn, rfl⟩ := hrnd
    exact execRnd_onlyChanges x nn h
  · exact (exec_frame (fun x nn e => hrnd ⟨x, nn, e⟩) h).1

/-- Settles O53, instruction by instruction, each by the frames of the updates it makes. -/
theorem onlyTheNamedElementsAreWritten : Obligations.OnlyTheNamedElementsAreWritten :=
  fun _ _ _ h => exec_onlyChanges h

end Sys2Proof.Machine
end

section
/-! PROOF. VF changes only as a flag or as a named destination (spec 10_state.md R13). -/

namespace Sys2Proof.Machine

/-- An instruction that is no writer of an element keeps a register's value there. -/
theorem exec_readV_of_not_writes {i : Instr} {s t : State} {r : Reg} (h : exec i s = .next t)
    (hw : ¬ Writes i (.v r)) : readV t r = readV s r :=
  BitVec.eq_of_toNat_eq (exec_onlyChanges h (.v r) hw)

theorem loadRegs_writes_vf_iff (x : Reg) : registersUpTo x (.v vf) ↔ x = vf := by
  constructor
  · rintro ⟨k, hk, hv⟩
    cases hv
    exact Fin.ext (Nat.le_antisymm (Nat.le_of_lt_succ x.isLt) hk)
  · rintro rfl
    exact ⟨vf, le_rfl, rfl⟩

/-- The instructions listed as writers of VF: the six flag setters, and those that name it as their destination (R13). -/
theorem writes_vf_cases {i : Instr} (h : Writes i (.v vf)) :
    (∃ x y, i = .addReg x y ∨ i = .subReg x y ∨ i = .shr x y ∨ i = .subn x y ∨ i = .shl x y) ∨
    (∃ x y n, i = .drw x y n) ∨
    (∃ nn, i = .ldImm vf nn ∨ i = .addImm vf nn ∨ i = .rnd vf nn) ∨
    (∃ y, i = .ldReg vf y ∨ i = .orReg vf y ∨ i = .andReg vf y ∨ i = .xorReg vf y) ∨
    i = .ldVxDt vf ∨ i = .ldVxK vf ∨ i = .loadRegs vf := by
  cases i with
  | addReg | subReg | shr | subn | shl => exact .inl (by simp)
  | drw => exact .inr (.inl (by simp))
  | ldImm | addImm | rnd => cases h; exact .inr (.inr (.inl (by simp)))
  | ldReg | orReg | andReg | xorReg => cases h; exact .inr (.inr (.inr (.inl (by simp))))
  | ldVxDt => cases h; simp
  | ldVxK => rcases h with h | h <;> cases h; simp
  | loadRegs x => obtain rfl := (loadRegs_writes_vf_iff x).1 h; simp
  | _ => simp [Writes, noElement, only, either, anyPixel, anyByte] at h

theorem flagByte_eq_zero_or_one (c : Bool) : flagByte c = 0 ∨ flagByte c = 1 := by
  cases c <;> simp [flagByte]

/-- A flag setter leaves in VF the flag it writes, whatever its destination (R49). -/
theorem exec_flag {i : Instr} {s t : State} (h : exec i s = .next t)
    (hi : (∃ x y, i = .addReg x y ∨ i = .subReg x y ∨ i = .shr x y ∨ i = .subn x y ∨ i = .shl x y) ∨
      (∃ x y n, i = .drw x y n)) : ∃ c, readV t vf = flagByte c := by
  obtain ⟨x, y, rfl | rfl | rfl | rfl | rfl⟩ | ⟨x, y, n, rfl⟩ := hi
  all_goals cases h; exact ⟨_, readV_writeV_same _ _ _⟩

/-- Settles O54: the writers of VF are read off the rows, and a flag setter writes VF last. -/
theorem flagRegisterWriters : Obligations.FlagRegisterWriters := by
  intro i s t h
  constructor
  · intro hne
    exact writes_vf_cases (Classical.byContradiction fun hw => hne (exec_readV_of_not_writes h hw))
  · intro hi
    obtain ⟨c, hc⟩ := exec_flag h hi
    rw [hc]
    exact flagByte_eq_zero_or_one c

end Sys2Proof.Machine
end

section
/-! PROOF. The canonical form of memory: every operation keeps it, and it determines memory from its bytes
(spec 10_state.md R22; 20_memory.md R31; log 11). -/

namespace Sys2Proof.Machine

/-! ### What an instruction makes of memory -/

/-- Only FX33 and FX55 touch memory; every other instruction leaves the very list (R36). -/
theorem exec_mem_cases {i : Instr} {s t : State} (h : exec i s = .next t) :
    t.mem = s.mem ∨ (∃ x, i = .ldB x) ∨ ∃ x, i = .storeRegs x := by
  cases i with
  | ldB x => exact .inr (.inl ⟨x, rfl⟩)
  | storeRegs x => exact .inr (.inr ⟨x, rfl⟩)
  | ret => obtain ⟨-, rfl⟩ | ⟨-, rfl⟩ := execRet_cases h <;> exact .inl rfl
  | call => obtain ⟨-, rfl⟩ | ⟨-, rfl⟩ := execCall_cases h <;> exact .inl rfl
  | seImm | sneImm | seReg | sneReg => cases h; exact .inl (skipIf_mem _ s)
  | skp =>
    obtain ⟨-, rfl⟩ | ⟨k, -, rfl⟩ := execSkp_cases h
    · exact .inl rfl
    · exact .inl (skipIf_mem _ s)
  | sknp =>
    obtain ⟨-, rfl⟩ | ⟨k, -, rfl⟩ := execSknp_cases h
    · exact .inl rfl
    · exact .inl (skipIf_mem _ s)
  | ldVxK => obtain ⟨-, rfl⟩ | ⟨k, -, rfl⟩ := execLdVxK_cases h <;> exact .inl rfl
  | _ => cases h; exact .inl rfl

theorem exec_keeps_inv {i : Instr} {s t : State} (hs : Inv s) (h : exec i s = .next t) : Inv t := by
  obtain hmem | ⟨x, rfl⟩ | ⟨x, rfl⟩ := exec_mem_cases h
  · rw [Inv, hmem]
    exact hs
  · cases h
    exact memWrite_wf _ _ (memWrite_wf _ _ (memWrite_wf _ _ hs))
  · cases h
    exact storeBlock_wf _ _ _ hs

theorem step_keeps_inv {s t : State} (hs : Inv s) (h : step s = .next t) : Inv t := by
  obtain ⟨-, rfl⟩ | ⟨-, i, -, hexec⟩ | ⟨-, -, rfl⟩ := step_cases h
  · exact hs
  · exact exec_keeps_inv (s := advancePc s) hs hexec
  · exact hs

/-- Settles O16: FX33 and FX55 write through `memWrite`, which keeps the form, and nothing else touches memory. -/
theorem everyOperationKeepsMemoryCanonical : Obligations.EveryOperationKeepsMemoryCanonical := by
  refine ⟨fun s t => step_keeps_inv, fun op s t hs h => ?_⟩
  cases op with
  | step => exact step_keeps_inv hs h
  | tick => cases h; exact hs
  | setKeys k => cases h; exact hs

/-! ### Reset and load -/

/-- The state a load answers: reset with the program's bytes placed, for a program that fits (R112, R113). -/
theorem init_eq_ok_iff (prog : List Byte) (t : State) : State.init prog = .ok t ↔
    prog.length ≤ Config.maxProg ∧
      t = setMem State.reset (loadBytes State.reset.mem Config.entry prog) := by
  unfold State.init
  split
  · next hlong => simp [Nat.not_le.2 hlong]
  · next hfits => simp [Nat.not_lt.1 hfits, eq_comm]

/-- Settles O17: reset lists no byte, and a load writes through `memWrite`. -/
theorem resetAndLoadedMemoryIsCanonical : Obligations.ResetAndLoadedMemoryIsCanonical := by
  refine ⟨reset_mem_wf, fun prog t h => ?_⟩
  obtain ⟨-, rfl⟩ := (init_eq_ok_iff prog t).1 h
  exact loadBytes_wf _ _ _ reset_mem_wf

/-! ### Canonical memories with the same bytes are the same list -/

theorem memWfFrom_cons (low : Nat) (c : Host.Cell) (cs : Memory) : memWfFrom low (c :: cs) = true ↔
    low ≤ c.1 ∧ c.1 < 4096 ∧ c.2 ≠ memInitial c.1 ∧ memWfFrom (c.1 + 1) cs = true := by
  simp [memWfFrom, and_assoc]

/-- A canonical memory from `low` on lists no address below `low`. -/
theorem memLookup_of_lt {low : Nat} {m : Memory} (h : memWfFrom low m = true) {a : Nat} (ha : a < low) :
    memLookup m a = none := by
  induction m generalizing low with
  | nil => rfl
  | cons c cs ih =>
    obtain ⟨hlow, -, -, hcs⟩ := (memWfFrom_cons low c cs).1 h
    rw [memLookup, if_neg (by omega)]
    exact ih hcs (by omega)

/-- A byte listed in a canonical memory has an address below 4096 and is not at its reset value. -/
theorem memLookup_some_of_wf {low : Nat} {m : Memory} (h : memWfFrom low m = true) {a : Nat} {b : Byte}
    (hb : memLookup m a = some b) : a < 4096 ∧ b ≠ memInitial a := by
  induction m generalizing low with
  | nil => cases hb
  | cons c cs ih =>
    obtain ⟨-, hlt, hne, hcs⟩ := (memWfFrom_cons low c cs).1 h
    rw [memLookup] at hb
    split at hb
    · next hc => cases hb; exact hc ▸ ⟨hlt, hne⟩
    · exact ih hcs hb

/-- What a canonical memory lists at an address is determined by the byte read there: nothing when that is the reset
value. -/
theorem memLookup_eq_of_wf {m : Memory} (h : memWf m = true) (a : Nat) :
    memLookup m a = if a < 4096 ∧ memRead m a ≠ memInitial a then some (memRead m a) else none := by
  cases hb : memLookup m a with
  | none =>
    rw [if_neg]
    rintro ⟨ha, hne⟩
    exact hne (by simp [memRead, Nat.mod_eq_of_lt ha, hb])
  | some b =>
    obtain ⟨ha, hne⟩ := memLookup_some_of_wf h hb
    have hread : memRead m a = b := by simp [memRead, Nat.mod_eq_of_lt ha, hb]
    rw [hread, if_pos ⟨ha, hne⟩]

/-- Lists with rising addresses that answer every lookup alike are the same list. -/
theorem eq_of_memLookup_eq {low : Nat} {m m' : Memory} (h : memWfFrom low m = true) (h' : memWfFrom low m' = true)
    (heq : ∀ a, memLookup m a = memLookup m' a) : m = m' := by
  induction m generalizing low m' with
  | nil =>
    cases m' with
    | nil => rfl
    | cons d ds => simpa [memLookup] using heq d.1
  | cons c cs ih =>
    cases m' with
    | nil => simpa [memLookup] using heq c.1
    | cons d ds =>
      obtain ⟨-, -, -, hcs⟩ := (memWfFrom_cons low c cs).1 h
      obtain ⟨-, -, -, hds⟩ := (memWfFrom_cons low d ds).1 h'
      have hc := heq c.1
      have hd := heq d.1
      have hfst : c.1 = d.1 := by
        rcases Nat.lt_trichotomy c.1 d.1 with hlt | he | hlt
        · simp [memLookup, hlt.ne', memLookup_of_lt hds (Nat.lt_succ_of_lt hlt)] at hc
        · exact he
        · simp [memLookup, hlt.ne', memLookup_of_lt hcs (Nat.lt_succ_of_lt hlt)] at hd
      have hsnd : c.2 = d.2 := by simpa [memLookup, hfst] using hc
      obtain rfl : c = d := Prod.ext hfst hsnd
      have htail : ∀ a, memLookup cs a = memLookup ds a := by
        intro a
        by_cases ha : c.1 = a
        · rw [memLookup_of_lt hcs (by omega), memLookup_of_lt hds (by omega)]
        · simpa [memLookup, ha] using heq a
      rw [ih hcs hds htail]

/-- Settles O18: reading alike gives listing alike, and that gives the same list. -/
theorem canonicalMemoriesThatReadAlikeAreEqual : Obligations.CanonicalMemoriesThatReadAlikeAreEqual := by
  intro m m' h h' hread
  refine eq_of_memLookup_eq h h' fun a => ?_
  rw [memLookup_eq_of_wf h, memLookup_eq_of_wf h', hread]

end Sys2Proof.Machine
end


section
/-! PROOF. No step depends on ST or on a stack entry at or above SP (spec 10_state.md R16, R19): two states that differ in
these alone take the same step. Of the instructions only RET, CALL and FX18 need a look. -/

namespace Sys2Proof.Machine

/-! ### The instructions that use neither the stack nor ST -/

/-- RET and CALL use the stack, FX18 writes ST, and no other instruction uses either (R28). -/
def usesStackOrSound : Instr → Bool
  | .ret | .call _ | .ldStVx _ => true
  | _ => false

/-- The state `s` with the stack, SP and ST of `u`. -/
def withStackAndSoundOf (s u : State) : State := setSt (setSp (setStack s u.stack) u.sp) u.st

theorem skipIf_withStackAndSoundOf (c : Bool) (s u : State) :
    skipIf c (withStackAndSoundOf s u) = withStackAndSoundOf (skipIf c s) u := by
  cases c <;> rfl

/-- An instruction that uses neither has the same effect beside any other stack, SP and ST. -/
theorem exec_withStackAndSoundOf {i : Instr} {s t : State} (hi : usesStackOrSound i = false) (h : exec i s = .next t)
    (u : State) : exec i (withStackAndSoundOf s u) = .next (withStackAndSoundOf t u) := by
  cases i with
  | ret | call | ldStVx => cases hi
  | seImm | sneImm | seReg | sneReg => cases h; exact congrArg _ (skipIf_withStackAndSoundOf _ _ _)
  | skp =>
    obtain ⟨hk, rfl⟩ | ⟨k, hk, rfl⟩ := execSkp_cases h
    · exact execSkp_of_none (s := withStackAndSoundOf s u) hk
    · rw [← skipIf_withStackAndSoundOf]
      exact execSkp_of_some (s := withStackAndSoundOf s u) hk
  | sknp =>
    obtain ⟨hk, rfl⟩ | ⟨k, hk, rfl⟩ := execSknp_cases h
    · exact execSknp_of_none (s := withStackAndSoundOf s u) hk
    · rw [← skipIf_withStackAndSoundOf]
      exact execSknp_of_some (s := withStackAndSoundOf s u) hk
  | ldVxK =>
    obtain ⟨hk, rfl⟩ | ⟨k, hk, rfl⟩ := execLdVxK_cases h
    · exact execLdVxK_of_none (s := withStackAndSoundOf s u) hk
    · exact execLdVxK_of_some (s := withStackAndSoundOf s u) hk
  | _ => cases h; rfl

/-- Such an instruction leaves the stack, SP and ST as they were. -/
theorem eq_withStackAndSoundOf_of_exec {i : Instr} {s t : State} (hi : usesStackOrSound i = false)
    (h : exec i s = .next t) : t = withStackAndSoundOf t s :=
  Host.Outcome.next.inj (h.symm.trans (exec_withStackAndSoundOf hi h s))

/-! ### From instructions to steps -/

/-- Two states with the same FAULT that fetch the same word take their steps alike: nothing on a faulted core, the same
instruction, or an unrecognised word. -/
theorem step_alike {s s' t : State} (hfault : s'.faultReg = s.faultReg) (hword : fetchWord s' = fetchWord s)
    (h : step s = .next t) :
    (t = s ∧ step s' = .next s') ∨
    (∃ i, exec i (advancePc s) = .next t ∧ step s' = exec i (advancePc s')) ∨
    (t = advancePc s ∧ step s' = .next (advancePc s')) := by
  obtain ⟨hf, rfl⟩ | ⟨hn, i, hi, hexec⟩ | ⟨hn, ⟨r, hr⟩, rfl⟩ := step_cases h
  · exact .inl ⟨rfl, step_of_faulted (hfault.symm ▸ hf)⟩
  · exact .inr (.inl ⟨i, hexec, step_of_instr (hfault.trans hn) (hword ▸ hi)⟩)
  · exact .inr (.inr ⟨rfl, step_of_reject (hfault.trans hn) (hword ▸ hr)⟩)

/-! ### The sound timer -/

/-- Beside another ST an instruction makes the same state, but for ST. -/
theorem exec_setSt {i : Instr} {s t : State} (h : exec i s = .next t) (b : Byte) :
    ∃ b', exec i (setSt s b) = .next (setSt t b') := by
  cases hi : usesStackOrSound i with
  | false =>
    refine ⟨b, (exec_withStackAndSoundOf hi h (setSt s b)).trans ?_⟩
    rw [eq_withStackAndSoundOf_of_exec hi h]; rfl
  | true =>
    cases i with
    | ret =>
      obtain ⟨hsp, rfl⟩ | ⟨hpos, rfl⟩ := execRet_cases h
      · exact ⟨b, execRet_of_empty (s := setSt s b) hsp⟩
      · exact ⟨b, execRet_of_pos (s := setSt s b) hpos⟩
    | call nnn =>
      obtain ⟨hsp, rfl⟩ | ⟨hlt, rfl⟩ := execCall_cases h
      · exact ⟨b, execCall_of_full (s := setSt s b) nnn hsp⟩
      · exact ⟨b, execCall_of_lt (s := setSt s b) nnn hlt⟩
    | ldStVx x => cases h; exact ⟨readV s x, rfl⟩
    | _ => cases hi

theorem step_setSt {s t : State} (h : step s = .next t) (b : Byte) : ∃ b', step (setSt s b) = .next (setSt t b') := by
  obtain ⟨rfl, h'⟩ | ⟨i, hexec, h'⟩ | ⟨rfl, h'⟩ := step_alike (s := s) (s' := setSt s b) rfl rfl h
  · exact ⟨b, h'⟩
  · obtain ⟨b', hb'⟩ := exec_setSt hexec b
    exact ⟨b', h'.trans hb'⟩
  · exact ⟨b, h'⟩

/-- Settles O56: the step beside another ST is the same step, but for ST. -/
theorem stepsDoNotDependOnTheSoundTimer : Obligations.StepsDoNotDependOnTheSoundTimer := by
  intro s t b h
  obtain ⟨b', hb'⟩ := step_setSt h b
  exact ⟨setSt t b', hb', frame_setSt b' rfl⟩

/-! ### Stack entries at or above SP -/

/-- The entries below `n` are the same. -/
def AgreeBelow (n : Fin 17) (entries entries' : Vector Word 16) : Prop :=
  ∀ k : Fin 16, k.val < n.val → entries[k] = entries'[k]

/-- A push keeps agreement: both stacks receive the same entry. -/
theorem AgreeBelow.push {n : Fin 17} {entries entries' : Vector Word 16} (h : AgreeBelow n entries entries') (w : Word)
    (hlt : n.val < 16) : AgreeBelow ⟨n.val + 1, by omega⟩ (entries.set n.val w) (entries'.set n.val w) := by
  intro k hk
  by_cases hkn : n.val = k.val
  · simp [hkn]
  · have hbelow : k.val < n.val := by simp only at hk; omega
    simpa [Vector.getElem_set_ne, hkn] using h k hbelow

/-- Beside other entries at or above SP an instruction makes the same state, but for entries at or above the new SP. -/
theorem exec_setStack {i : Instr} {s t : State} {entries : Vector Word 16} (hagree : AgreeBelow s.sp entries s.stack)
    (h : exec i s = .next t) :
    ∃ entries', exec i (setStack s entries) = .next (setStack t entries') ∧ AgreeBelow t.sp entries' t.stack := by
  cases hi : usesStackOrSound i with
  | false =>
    refine ⟨entries, (exec_withStackAndSoundOf hi h (setStack s entries)).trans ?_, ?_⟩
    · rw [eq_withStackAndSoundOf_of_exec hi h]; rfl
    · rw [eq_withStackAndSoundOf_of_exec hi h]; exact hagree
  | true =>
    cases i with
    | ret =>
      obtain ⟨hsp, rfl⟩ | ⟨hpos, rfl⟩ := execRet_cases h
      · exact ⟨entries, execRet_of_empty (s := setStack s entries) hsp, hagree⟩
      · have htop : entries[s.sp.val - 1] = s.stack[s.sp.val - 1] :=
          hagree ⟨s.sp.val - 1, by omega⟩ (Nat.sub_one_lt hpos)
        refine ⟨entries, (execRet_of_pos (s := setStack s entries) hpos).trans ?_,
          fun k hk => hagree k (Nat.lt_of_lt_pred hk)⟩
        rw [← htop]; rfl
    | call nnn =>
      obtain ⟨hsp, rfl⟩ | ⟨hlt, rfl⟩ := execCall_cases h
      · exact ⟨entries, execCall_of_full (s := setStack s entries) nnn hsp, hagree⟩
      · exact ⟨entries.set s.sp.val s.pc, execCall_of_lt (s := setStack s entries) nnn hlt, hagree.push s.pc hlt⟩
    | ldStVx x => cases h; exact ⟨entries, rfl, hagree⟩
    | _ => cases hi

theorem step_setStack {s t : State} {entries : Vector Word 16} (hagree : AgreeBelow s.sp entries s.stack)
    (h : step s = .next t) :
    ∃ entries', step (setStack s entries) = .next (setStack t entries') ∧ AgreeBelow t.sp entries' t.stack := by
  obtain ⟨rfl, h'⟩ | ⟨i, hexec, h'⟩ | ⟨rfl, h'⟩ := step_alike (s := s) (s' := setStack s entries) rfl rfl h
  · exact ⟨entries, h', hagree⟩
  · obtain ⟨entries', he, hagree'⟩ := exec_setStack (s := advancePc s) hagree hexec
    exact ⟨entries', h'.trans he, hagree'⟩
  · exact ⟨entries, h', hagree⟩

/-- Settles O57: agreement of the entries below SP is kept by every step, pushes and pops among them. -/
theorem stepsDoNotDependOnPoppedEntries : Obligations.StepsDoNotDependOnPoppedEntries := by
  intro s t entries hagree h
  obtain ⟨entries', h', hagree'⟩ := step_setStack hagree h
  refine ⟨setStack t entries', h', rfl, frame_setStack fun k hk => hagree' k (Nat.lt_of_not_le fun hle => ?_)⟩
  exact hk ⟨k, hle, rfl⟩

end Sys2Proof.Machine
end

section
/-! PROOF. The fetch and memory (spec 20_memory.md R30, R35, R39): a fetch sees PC only modulo 4096, and it reads the bytes
that FX55 stored there. -/

namespace Sys2Proof.Machine

/-- A fetch reads the two bytes from any address that is PC modulo 4096; PC + 1 is reduced after the addition (R30, R35). -/
theorem fetchWord_eq_of_mod_eq {s : State} {a : Nat} (h : s.pc.toNat % 4096 = a % 4096) :
    fetchWord s = wordOfBytes (memRead s.mem a) (memRead s.mem (a + 1)) := by
  have hnext : (s.pc.toNat + 1) % 4096 = (a + 1) % 4096 := by omega
  rw [fetchWord, memRead_congr s.mem h, memRead_congr s.mem hnext]

/-- Settles O9: the second state's PC is one of the addresses the first fetch may be read from. -/
theorem fetchWrapsModulo4096 : Obligations.FetchWrapsModulo4096 := by
  intro s t hmem hpc
  rw [fetchWord_eq_of_mod_eq hpc, hmem, fetchWord]

/-- FX55 leaves each of V0..Vx at its address (R82). -/
theorem memRead_exec_storeRegs {x k : Reg} {s t : State} (h : exec (.storeRegs x) s = .next t) (hk : k.val ≤ x.val) :
    memRead t.mem (indexAddr s k.val) = readV s k := by
  cases h
  exact memRead_storeBlock_of_mem s.v (indexAddr s 0) (regsUpTo x) s.mem ((mem_regsUpTo x k).2 hk)

/-- FX55 by itself does not move PC. -/
theorem exec_storeRegs_pc {x : Reg} {s t : State} (h : exec (.storeRegs x) s = .next t) : t.pc = s.pc := by
  cases h
  rfl

/-- Settles O45: PC is I modulo 4096, so the fetch reads the bytes at I and I + 1, where FX55 put V0 and V1. -/
theorem nextFetchSeesTheStore : Obligations.NextFetchSeesTheStore := by
  intro x s t hx hpc h
  have hfetch : t.pc.toNat % 4096 = indexAddr s 0 % 4096 := by rw [exec_storeRegs_pc h]; exact hpc.symm
  have hv0 : memRead t.mem (indexAddr s 0) = readV s 0 := memRead_exec_storeRegs (k := 0) h (Nat.zero_le _)
  have hv1 : memRead t.mem (indexAddr s 0 + 1) = readV s 1 := memRead_exec_storeRegs (k := 1) h hx
  rw [fetchWord_eq_of_mod_eq hfetch, hv0, hv1]

end Sys2Proof.Machine
end

section
/-! PROOF. The decoder and the encoder are each other's inverse (spec 30_encoding.md R44, R46, R54), and the words that R47
lists are the only ones without an instruction. -/

namespace Sys2Proof.Machine

/-! ### Decoding an encoded instruction -/

theorem fieldN_wordRR_eq_iff (f : BitVec 4) (x y : Reg) (n : BitVec 4) (k : Fin 16) :
    fieldN (wordRR f x y n) = k ↔ n.toNat = k.val := by
  rw [Fin.ext_iff, fieldN_wordRR]

theorem wellFormed_sys_iff (nnn : Imm12) : (Instr.sys nnn).wellFormed = true ↔ nnn ≠ 0x0E0 ∧ nnn ≠ 0x0EE := by
  simp [Instr.wellFormed]

/-- Every row, by the family of its format's word and then the fixed low digits. -/
theorem decodeWord_encode {i : Instr} (hwf : i.wellFormed = true) : decodeWord (encode i) = .instr i := by
  cases i with
  | sys nnn =>
    obtain ⟨hcls, hret⟩ : nnn ≠ 0x0E0 ∧ nnn ≠ 0x0EE := (wellFormed_sys_iff nnn).1 hwf
    rw [encode, decodeWord_family0 (fieldFamily_wordA _ _)]
    rw [decodeFamily0, fieldNNN_wordA, if_neg hcls, if_neg hret]
  | cls | ret => rfl
  | jp nnn => simp [encode, decodeWord_family1]
  | call nnn => simp [encode, decodeWord_family2]
  | seImm x nn => simp [encode, decodeWord_family3]
  | sneImm x nn => simp [encode, decodeWord_family4]
  | seReg x y => simp [encode, decodeWord_family5, fieldN_wordRR_eq_iff]
  | ldImm x nn => simp [encode, decodeWord_family6]
  | addImm x nn => simp [encode, decodeWord_family7]
  | ldReg | orReg | andReg | xorReg | addReg | subReg | shr | subn | shl =>
    rw [encode, decodeWord_family8 (fieldFamily_wordRR _ _ _ _)]
    simp [decodeFamily8, fieldN_wordRR_eq_iff]
  | sneReg x y => simp [encode, decodeWord_family9, fieldN_wordRR_eq_iff]
  | ldI nnn => simp [encode, decodeWord_familyA]
  | jpV0 nnn => simp [encode, decodeWord_familyB]
  | rnd x nn => simp [encode, decodeWord_familyC]
  | drw x y n => simp [encode, decodeWord_familyD, Fin.ext_iff]
  | skp | sknp =>
    rw [encode, decodeWord_familyE (fieldFamily_wordRI _ _ _)]
    simp [decodeFamilyE]
  | ldVxDt | ldVxK | ldDtVx | ldStVx | addI | ldF | ldB | storeRegs | loadRegs =>
    rw [encode, decodeWord_familyF (fieldFamily_wordRI _ _ _)]
    simp [decodeFamilyF]

/-- Settles O4: the two bytes make the encoded word again, which decodes row by row. -/
theorem decodingTheEncodedBytesGivesTheInstruction : Obligations.DecodingTheEncodedBytesGivesTheInstruction :=
  fun i hwf => (decodeBytes_bytesOfWord (encode i)).trans (decodeWord_encode hwf)

/-! ### A word from its fields, format by format -/

section Words

variable {w : Word} {f : BitVec 4}

theorem extract_family (hf : (fieldFamily w).val = f.toNat) : w.extractLsb' 12 4 = f := BitVec.eq_of_toNat_eq hf

theorem wordA_eq_of_family (hf : (fieldFamily w).val = f.toNat) : wordA f (fieldNNN w) = w := by
  rw [← extract_family hf, wordA_fields]

theorem wordRI_eq_of_family (hf : (fieldFamily w).val = f.toNat) : wordRI f (fieldX w) (fieldNN w) = w := by
  rw [← extract_family hf, wordRI_fields]

theorem wordRI_eq_of_fields {nn : Byte} (hf : (fieldFamily w).val = f.toNat) (hnn : fieldNN w = nn) :
    wordRI f (fieldX w) nn = w :=
  hnn ▸ wordRI_eq_of_family hf

theorem wordRR_eq_of_fields {n : BitVec 4} (hf : (fieldFamily w).val = f.toNat) (hn : (fieldN w).val = n.toNat) :
    wordRR f (fieldX w) (fieldY w) n = w := by
  have hlow : w.extractLsb' 0 4 = n := BitVec.eq_of_toNat_eq hn
  rw [← extract_family hf, ← hlow, wordRR_fields]

end Words

/-! ### The unrecognised words of each family (R47) -/

section Unrecognized

variable {w : Word}

/-- The other families use every word. -/
theorem not_unrecognizedWord_of_family (hf : (fieldFamily w).val ∉ [5, 8, 9, 14, 15]) : ¬ UnrecognizedWord w := by
  rintro (⟨h, -⟩ | ⟨h, -⟩ | ⟨h, -⟩ | ⟨h, -⟩ | ⟨h, -⟩) <;> exact hf (by rw [h]; decide)

theorem unrecognizedWord_family5 (hf : (fieldFamily w).val = 5) : UnrecognizedWord w ↔ fieldN w ≠ 0 := by
  simp [UnrecognizedWord, show fieldFamily w = 5 from Fin.ext hf]

theorem unrecognizedWord_family8 (hf : (fieldFamily w).val = 8) : UnrecognizedWord w ↔
    fieldN w ≠ 0x0 ∧ fieldN w ≠ 0x1 ∧ fieldN w ≠ 0x2 ∧ fieldN w ≠ 0x3 ∧ fieldN w ≠ 0x4 ∧ fieldN w ≠ 0x5 ∧
      fieldN w ≠ 0x6 ∧ fieldN w ≠ 0x7 ∧ fieldN w ≠ 0xE := by
  have hnibble : ∀ n : Fin 16, (n = 0x8 ∨ n = 0x9 ∨ n = 0xA ∨ n = 0xB ∨ n = 0xC ∨ n = 0xD ∨ n = 0xF) ↔
      n ≠ 0x0 ∧ n ≠ 0x1 ∧ n ≠ 0x2 ∧ n ≠ 0x3 ∧ n ≠ 0x4 ∧ n ≠ 0x5 ∧ n ≠ 0x6 ∧ n ≠ 0x7 ∧ n ≠ 0xE := by decide
  simpa [UnrecognizedWord, show fieldFamily w = 8 from Fin.ext hf] using hnibble (fieldN w)

theorem unrecognizedWord_family9 (hf : (fieldFamily w).val = 9) : UnrecognizedWord w ↔ fieldN w ≠ 0 := by
  simp [UnrecognizedWord, show fieldFamily w = 9 from Fin.ext hf]

theorem unrecognizedWord_familyE (hf : (fieldFamily w).val = 14) :
    UnrecognizedWord w ↔ fieldNN w ≠ 0x9E ∧ fieldNN w ≠ 0xA1 := by
  simp [UnrecognizedWord, show fieldFamily w = 14 from Fin.ext hf]

theorem unrecognizedWord_familyF (hf : (fieldFamily w).val = 15) : UnrecognizedWord w ↔
    fieldNN w ≠ 0x07 ∧ fieldNN w ≠ 0x0A ∧ fieldNN w ≠ 0x15 ∧ fieldNN w ≠ 0x18 ∧ fieldNN w ≠ 0x1E ∧
      fieldNN w ≠ 0x29 ∧ fieldNN w ≠ 0x33 ∧ fieldNN w ≠ 0x55 ∧ fieldNN w ≠ 0x65 := by
  simp [UnrecognizedWord, show fieldFamily w = 15 from Fin.ext hf]

end Unrecognized

/-! ### What the opcode map answers -/

/-- The answer `d` is right for the word `w`: an instruction is well-formed, has `w` as its encoding, and `w` is not one of
the words R47 lists; a rejection is of such a word and names it (R46, R47, R54). -/
def AnswersFor (w : Word) : Decoded → Prop
  | .instr i => ¬ UnrecognizedWord w ∧ i.wellFormed = true ∧ encode i = w
  | .reject r => UnrecognizedWord w ∧ r = .unrecognized w

section Families

variable {w : Word}

theorem decodeFamily0_answersFor (hf : (fieldFamily w).val = 0) : AnswersFor w (.instr (decodeFamily0 w)) := by
  have hrec : ¬ UnrecognizedWord w := not_unrecognizedWord_of_family (by rw [hf]; decide)
  have hw : wordA 0x0 (fieldNNN w) = w := wordA_eq_of_family hf
  unfold decodeFamily0
  split_ifs with hcls hret
  · exact ⟨hrec, rfl, by rw [← hw, hcls]; rfl⟩
  · exact ⟨hrec, rfl, by rw [← hw, hret]; rfl⟩
  · exact ⟨hrec, (wellFormed_sys_iff _).2 ⟨hcls, hret⟩, hw⟩

theorem decodeFamily8_answersFor (hf : (fieldFamily w).val = 8) : AnswersFor w (decodeFamily8 w) := by
  unfold decodeFamily8
  split_ifs with h0 h1 h2 h3 h4 h5 h6 h7 hE
  case neg => exact ⟨(unrecognizedWord_family8 hf).2 ⟨h0, h1, h2, h3, h4, h5, h6, h7, hE⟩, rfl⟩
  all_goals
    refine ⟨by simp [unrecognizedWord_family8 hf, *], rfl, wordRR_eq_of_fields hf ?_⟩
    rw [‹fieldN w = _›]; rfl

theorem decodeFamilyE_answersFor (hf : (fieldFamily w).val = 14) : AnswersFor w (decodeFamilyE w) := by
  unfold decodeFamilyE
  split_ifs with h9E hA1
  case neg => exact ⟨(unrecognizedWord_familyE hf).2 ⟨h9E, hA1⟩, rfl⟩
  all_goals exact ⟨by simp [unrecognizedWord_familyE hf, *], rfl, wordRI_eq_of_fields hf ‹_›⟩

theorem decodeFamilyF_answersFor (hf : (fieldFamily w).val = 15) : AnswersFor w (decodeFamilyF w) := by
  unfold decodeFamilyF
  split_ifs with h07 h0A h15 h18 h1E h29 h33 h55 h65
  case neg => exact ⟨(unrecognizedWord_familyF hf).2 ⟨h07, h0A, h15, h18, h1E, h29, h33, h55, h65⟩, rfl⟩
  all_goals exact ⟨by simp [unrecognizedWord_familyF hf, *], rfl, wordRI_eq_of_fields hf ‹_›⟩

/-- The register skips, families 5 and 9, fix the low nibble at 0. -/
theorem answersFor_of_low_nibble_zero {i : Instr} (hunrec : UnrecognizedWord w ↔ fieldN w ≠ 0)
    (hwf : i.wellFormed = true) (henc : fieldN w = 0 → encode i = w) :
    AnswersFor w (if fieldN w = 0 then .instr i else .reject (.unrecognized w)) := by
  split_ifs with hn
  · exact ⟨fun h => hunrec.1 h hn, hwf, henc hn⟩
  · exact ⟨hunrec.2 hn, rfl⟩

end Families

/-- The opcode map, family by family. -/
theorem decodeWord_answersFor (w : Word) : AnswersFor w (decodeWord w) := by
  have hlt := (fieldFamily w).isLt
  have hrec := not_unrecognizedWord_of_family (w := w)
  interval_cases hf : (fieldFamily w).val
  · exact decodeWord_family0 hf ▸ decodeFamily0_answersFor hf
  · exact decodeWord_family1 hf ▸ ⟨hrec (by decide), rfl, wordA_eq_of_family hf⟩
  · exact decodeWord_family2 hf ▸ ⟨hrec (by decide), rfl, wordA_eq_of_family hf⟩
  · exact decodeWord_family3 hf ▸ ⟨hrec (by decide), rfl, wordRI_eq_of_family hf⟩
  · exact decodeWord_family4 hf ▸ ⟨hrec (by decide), rfl, wordRI_eq_of_family hf⟩
  · exact decodeWord_family5 hf ▸ answersFor_of_low_nibble_zero (unrecognizedWord_family5 hf) rfl
      fun hn => wordRR_eq_of_fields hf (congrArg Fin.val hn)
  · exact decodeWord_family6 hf ▸ ⟨hrec (by decide), rfl, wordRI_eq_of_family hf⟩
  · exact decodeWord_family7 hf ▸ ⟨hrec (by decide), rfl, wordRI_eq_of_family hf⟩
  · exact decodeWord_family8 hf ▸ decodeFamily8_answersFor hf
  · exact decodeWord_family9 hf ▸ answersFor_of_low_nibble_zero (unrecognizedWord_family9 hf) rfl
      fun hn => wordRR_eq_of_fields hf (congrArg Fin.val hn)
  · exact decodeWord_familyA hf ▸ ⟨hrec (by decide), rfl, wordA_eq_of_family hf⟩
  · exact decodeWord_familyB hf ▸ ⟨hrec (by decide), rfl, wordA_eq_of_family hf⟩
  · exact decodeWord_familyC hf ▸ ⟨hrec (by decide), rfl, wordRI_eq_of_family hf⟩
  · exact decodeWord_familyD hf ▸ ⟨hrec (by decide), rfl, wordRR_eq_of_fields hf (reg_ofNat_toNat _).symm⟩
  · exact decodeWord_familyE hf ▸ decodeFamilyE_answersFor hf
  · exact decodeWord_familyF hf ▸ decodeFamilyF_answersFor hf

/-- Settles O5: an answer that is an instruction is well-formed and has the word as its encoding. -/
theorem everyDecodedWordIsItsInstructionsEncoding : Obligations.EveryDecodedWordIsItsInstructionsEncoding := by
  intro w i h
  have hanswer := decodeWord_answersFor w
  rw [h] at hanswer
  exact hanswer.2

/-! ### Unrecognised words -/

theorem decodeWord_of_unrecognized {w : Word} (h : UnrecognizedWord w) : decodeWord w = .reject (.unrecognized w) := by
  have hanswer := decodeWord_answersFor w
  cases hd : decodeWord w with
  | instr i => rw [hd] at hanswer; exact absurd h hanswer.1
  | reject r => rw [hd] at hanswer; rw [hanswer.2]

theorem unrecognizedWord_of_reject {w : Word} {r : Reject} (h : decodeWord w = .reject r) : UnrecognizedWord w := by
  have hanswer := decodeWord_answersFor w
  rw [h] at hanswer
  exact hanswer.1

theorem exists_instr_of_not_unrecognized {w : Word} (h : ¬ UnrecognizedWord w) : ∃ i, decodeWord w = .instr i := by
  cases hd : decodeWord w with
  | instr i => exact ⟨i, rfl⟩
  | reject r => exact absurd (unrecognizedWord_of_reject hd) h

/-- Settles O8: the answers of the opcode map, and the step on a rejected word. -/
theorem unrecognizedWordsOnlyAdvancePc : Obligations.UnrecognizedWordsOnlyAdvancePc := by
  refine ⟨fun w => ⟨unrecognizedWord_of_reject, decodeWord_of_unrecognized⟩,
    fun w => exists_instr_of_not_unrecognized, fun s hn hw => ?_⟩
  exact ⟨advancePc s, step_of_reject hn (decodeWord_of_unrecognized hw), rfl, frame_setPc _ rfl⟩

/-- Settles O6: each word is the encoding of its instruction, and 0x5121 is one of the words R47 lists. -/
theorem wordsOfTheTableDecodeAsWritten : Obligations.WordsOfTheTableDecodeAsWritten :=
  ⟨decodeWord_encode (i := .sys 0x123) rfl, decodeWord_encode (i := .cls) rfl, decodeWord_encode (i := .call 0x2AC) rfl,
    decodeWord_encode (i := .ldImm 0xA 0x2F) rfl, decodeWord_encode (i := .shl 1 2) rfl,
    decodeWord_encode (i := .drw 2 3 5) rfl, decodeWord_encode (i := .storeRegs 3) rfl,
    decodeWord_encode (i := .sknp 5) rfl, decodeWord_of_unrecognized (by decide)⟩

end Sys2Proof.Machine
end

section
/-! PROOF. The step cycle (spec 30_encoding.md R45): a step runs the instruction at PC, and no step and no run of host
operations is without a next state (60_exceptions.md R92 to R94). -/

namespace Sys2Proof.Machine

/-- Settles O7: the two bytes make the fetched word, and the advance sets PC alone. -/
theorem stepRunsTheInstructionAtPc : Obligations.StepRunsTheInstructionAtPc := by
  intro s i hn hi
  have hword : decodeWord (fetchWord s) = .instr i := hi
  exact ⟨step_of_instr hn hword, rfl, frame_setPc _ rfl⟩

/-- The stack, key and wait instructions answer a next state in each of their outcomes; every other has one outcome. -/
theorem exec_total (i : Instr) (s : State) : ∃ t, exec i s = .next t := by
  cases i with
  | ret =>
    by_cases hsp : s.sp = 0
    · exact ⟨_, execRet_of_empty hsp⟩
    · exact ⟨_, execRet_of_pos fun e => hsp (Fin.ext e)⟩
  | call nnn =>
    by_cases hlt : s.sp.val < 16
    · exact ⟨_, execCall_of_lt nnn hlt⟩
    · exact ⟨_, execCall_of_full nnn ((sp_eq_sixteen_iff s).2 hlt)⟩
  | skp x =>
    cases hk : keyIndex (readV s x) with
    | none => exact ⟨_, execSkp_of_none hk⟩
    | some k => exact ⟨_, execSkp_of_some hk⟩
  | sknp x =>
    cases hk : keyIndex (readV s x) with
    | none => exact ⟨_, execSknp_of_none hk⟩
    | some k => exact ⟨_, execSknp_of_some hk⟩
  | ldVxK x =>
    cases hk : firstKey s.keys with
    | none => exact ⟨_, execLdVxK_of_none hk⟩
    | some k => exact ⟨_, execLdVxK_of_some hk⟩
  | _ => exact ⟨_, rfl⟩

theorem step_total (s : State) : ∃ t, step s = .next t := by
  by_cases hn : s.faultReg = .none
  · cases hd : decodeWord (fetchWord s) with
    | instr i => exact step_of_instr hn hd ▸ exec_total i (advancePc s)
    | reject r => exact ⟨_, step_of_reject hn hd⟩
  · exact ⟨s, step_of_faulted hn⟩

theorem applyOp_total (op : HostOp) (s : State) : ∃ t, applyOp op s = .next t := by
  cases op with
  | step => exact step_total s
  | tick | setKeys => exact ⟨_, rfl⟩

theorem runOps_cons_of_next {op : HostOp} {s t : State} (h : applyOp op s = .next t) (ops : List HostOp) :
    runOps (op :: ops) s = runOps ops t := by
  rw [runOps, h]

theorem runOps_total (ops : List HostOp) (s : State) : ∃ t, runOps ops s = .next t := by
  induction ops generalizing s with
  | nil => exact ⟨s, rfl⟩
  | cons op ops ih =>
    obtain ⟨t, ht⟩ := applyOp_total op s
    exact runOps_cons_of_next ht ops ▸ ih t

/-- Settles O14: every instruction has a next state, hence every step, every operation and, by induction, every run. -/
theorem everyRunReachesAState : Obligations.EveryRunReachesAState :=
  ⟨step_total, runOps_total⟩

end Sys2Proof.Machine
end

section
/-! PROOF. The display instructions (spec 40_display.md R55, R56): 00E0 clears every pixel; DXYN toggles exactly the pixels its
drawn set bits cover and flags a collision, so that drawing twice at one place restores the display (conflict C5). -/

namespace Sys2Proof.Machine

/-! ### 00E0 (R55) -/

/-- Settles O19: every pixel of the cleared display is clear, and the display is all that is replaced. -/
theorem clsClearsEveryPixel : Obligations.ClsClearsEveryPixel :=
  ⟨decodeWord_encode (i := .cls) rfl, fun _ => ⟨_, rfl, pixel_clearDisplay, exec_frame (i := .cls) (by simp) rfl⟩⟩

/-! ### The pixels a sprite covers (R56) -/

/-- A sprite row falls on the columns `x0 + c` of its set bits `7 - c` that lie on the display. -/
theorem rowBit_eq_true_iff (b : Byte) (x0 px : Fin 64) :
    rowBit b x0 px = true ↔ ∃ c < 8, px.val = x0.val + c ∧ b.getLsbD (7 - c) = true := by
  rw [rowBit, Bool.and_eq_true, decide_eq_true_eq]
  constructor
  · rintro ⟨hcol, hbit⟩
    exact ⟨px.val - x0.val, by omega, by omega, hbit⟩
  · rintro ⟨c, hc, hpx, hbit⟩
    have hsub : px.val - x0.val = c := by omega
    exact ⟨by omega, hsub.symm ▸ hbit⟩

/-- Whether DXYN toggles the pixel of row `py`, column `px`, in the terms of `drawRows`. -/
def spriteBit (x y : Reg) (n : Fin 16) (s : State) (py : Fin 32) (px : Fin 64) : Bool :=
  rowsBit s.mem (indexAddr s 0) (spriteColumn (readV s x)) (spriteRow (readV s y)) (List.range n.val) py px

theorem spriteBit_eq_true_iff (x y : Reg) (n : Fin 16) (s : State) (py : Fin 32) (px : Fin 64) :
    spriteBit x y n s py px = true ↔ SpriteCovers s x y n py px := by
  simp only [spriteBit, rowsBit_eq_true, rowBit_eq_true_iff, List.mem_range]
  constructor
  · rintro ⟨r, hr, hpy, c, hc, hpx, hbit⟩
    exact ⟨r, c, hr, hc, Fin.ext_iff.1 hpy, hpx, hbit⟩
  · rintro ⟨r, c, hr, hc, hpy, hpx, hbit⟩
    exact ⟨r, hr, Fin.ext hpy, c, hc, hpx, hbit⟩

/-! ### The canvas DXYN draws (R56) -/

/-- The sprite rows of DXYN are fewer than the 32 display rows. -/
theorem sprite_rows_lt (n : Fin 16) : ∀ r ∈ List.range n.val, r < 32 := fun r hr => by
  have := List.mem_range.1 hr
  omega

theorem spriteCanvas_pixel (x y : Reg) (n : Fin 16) (s : State) (py : Fin 32) (px : Fin 64) :
    pixel (spriteCanvas x y n s).display py px = (pixel s.display py px ^^ spriteBit x y n s py px) :=
  drawRows_pixel _ _ _ _ _ _ List.nodup_range (sprite_rows_lt n) py px

theorem spriteCanvas_collided_iff (x y : Reg) (n : Fin 16) (s : State) : (spriteCanvas x y n s).collided = true ↔
    ∃ py px, SpriteCovers s x y n py px ∧ pixel s.display py px = true := by
  rw [spriteCanvas, drawRows_collided _ _ _ _ _ _ List.nodup_range (sprite_rows_lt n)]
  simp only [← spriteBit_eq_true_iff, spriteBit, rowsBit_eq_true]
  constructor
  · rintro (h | ⟨r, hr, px, hbit, hset⟩)
    · cases h
    · exact ⟨_, px, ⟨r, hr, rfl, hbit⟩, hset⟩
  · rintro ⟨_, px, ⟨r, hr, rfl, hbit⟩, hset⟩
    exact .inr ⟨r, hr, px, hbit, hset⟩

/-! ### What DXYN makes of the state (R56) -/

@[simp] theorem flagByte_eq_one_iff (c : Bool) : flagByte c = 1 ↔ c = true := by cases c <;> simp [flagByte]

@[simp] theorem flagByte_eq_zero_iff (c : Bool) : flagByte c = 0 ↔ c = false := by cases c <;> simp [flagByte]

section Drw
variable {x y : Reg} {n : Fin 16} {s t : State} (h : exec (.drw x y n) s = .next t)
include h

theorem exec_drw_mem : t.mem = s.mem := by cases h; rfl

theorem exec_drw_i : t.i = s.i := by cases h; rfl

theorem exec_drw_pixel (py : Fin 32) (px : Fin 64) :
    pixel t.display py px = (pixel s.display py px ^^ spriteBit x y n s py px) := by
  cases h
  exact spriteCanvas_pixel x y n s py px

theorem exec_drw_vf : readV t vf = flagByte (spriteCanvas x y n s).collided := by
  cases h
  exact readV_writeV_same _ _ _

theorem exec_drw_vf_eq_one_iff : readV t vf = 1 ↔
    ∃ py px, SpriteCovers s x y n py px ∧ pixel s.display py px = true := by
  rw [exec_drw_vf h, flagByte_eq_one_iff, spriteCanvas_collided_iff]

theorem exec_drw_vf_eq_zero_iff : readV t vf = 0 ↔
    ¬ ∃ py px, SpriteCovers s x y n py px ∧ pixel s.display py px = true := by
  rw [exec_drw_vf h, flagByte_eq_zero_iff, ← spriteCanvas_collided_iff, Bool.not_eq_true]

/-- A draw that left its own coordinates alone covers the same pixels the next time. -/
theorem exec_drw_spriteBit (hx : readV t x = readV s x) (hy : readV t y = readV s y) (py : Fin 32) (px : Fin 64) :
    spriteBit x y n t py px = spriteBit x y n s py px := by
  rw [spriteBit, spriteBit, indexAddr, indexAddr, exec_drw_mem h, exec_drw_i h, hx, hy]

end Drw

/-- Settles O20: the canvas, row by row, toggles the covered pixels, and VF receives the collision it notes. -/
theorem drwTogglesTheCoveredPixels : Obligations.DrwTogglesTheCoveredPixels := by
  intro x y n
  refine ⟨decodeWord_encode (i := .drw x y n) rfl, fun s => ?_⟩
  obtain ⟨t, ht⟩ := exec_total (.drw x y n) s
  refine ⟨t, ht, fun py px => ?_, (exec_drw_vf_eq_one_iff ht).2, (exec_drw_vf_eq_zero_iff ht).2, exec_frame (by simp) ht⟩
  rw [exec_drw_pixel ht, Bool.coe_xor_iff, spriteBit_eq_true_iff]

/-- Settles O21: both draws toggle the same pixels, so each is back where it was, and a covered pixel is set before the
second draw exactly when it was clear before the first. -/
theorem drawingTwiceRestoresTheDisplay : Obligations.DrawingTwiceRestoresTheDisplay := by
  intro x y n s t u hst hx hy htu
  have hsame := exec_drw_spriteBit hst hx hy
  refine ⟨fun py px => ?_, ?_⟩
  · calc pixel u.display py px
        = (pixel t.display py px ^^ spriteBit x y n s py px) := by rw [exec_drw_pixel htu, hsame]
      _ = ((pixel s.display py px ^^ spriteBit x y n s py px) ^^ spriteBit x y n s py px) := by rw [exec_drw_pixel hst]
      _ = pixel s.display py px := by rw [Bool.xor_assoc, Bool.xor_self, Bool.xor_false]
  · rw [exec_drw_vf_eq_one_iff htu]
    refine exists₂_congr fun py px => ?_
    rw [← spriteBit_eq_true_iff, ← spriteBit_eq_true_iff, hsame]
    refine and_congr_right fun hcovers => ?_
    rw [exec_drw_pixel hst, hcovers, Bool.xor_true, Bool.not_eq_true']

end Sys2Proof.Machine
end

section
/-! PROOF. Control transfer (spec 41_control.md R57 to R65): the jumps, CALL and RET with their faults, and the skips. -/

namespace Sys2Proof.Machine

/-! ### 0NNN and the jumps (R57, R59, R61) -/

/-- Settles O22: the arm of SYS answers the state it was given. -/
theorem sysDoesNothing : Obligations.SysDoesNothing := by
  intro nnn
  refine ⟨fun hcls hret => ?_, fun s => ⟨s, rfl, Frame.refl _ s⟩⟩
  exact decodeWord_encode (i := .sys nnn) ((wellFormed_sys_iff nnn).2 ⟨hcls, hret⟩)

/-- NNN is zero extended, so the target is the same number. -/
@[simp] theorem targetOf_toNat (nnn : Imm12) : (targetOf nnn).toNat = nnn.toNat :=
  BitVec.toNat_setWidth_of_le (by decide)

/-- A byte and a 12-bit number add up below 65536: the sum does not wrap. -/
theorem zeroExtend_add_targetOf_toNat (b : Byte) (nnn : Imm12) :
    (b.zeroExtend 16 + targetOf nnn).toNat = b.toNat + nnn.toNat := by
  have hb : (b.zeroExtend 16).toNat = b.toNat := BitVec.toNat_setWidth_of_le (by decide)
  have hlt : b.toNat + nnn.toNat < 65536 := by omega
  rw [BitVec.toNat_add, hb, targetOf_toNat, Nat.mod_eq_of_lt hlt]

/-- Settles O24: PC takes the zero-extended NNN. -/
theorem jpSetsPc : Obligations.JpSetsPc := fun nnn =>
  ⟨decodeWord_encode (i := .jp nnn) rfl, fun _ => ⟨_, rfl, targetOf_toNat nnn, frame_setPc _ rfl⟩⟩

/-- Settles O27: the sum in 16 bits is the sum of the numbers. -/
theorem jpV0AddsV0Unmasked : Obligations.JpV0AddsV0Unmasked := fun nnn =>
  ⟨decodeWord_encode (i := .jpV0 nnn) rfl,
    fun s => ⟨_, rfl, zeroExtend_add_targetOf_toNat (readV s 0) nnn, frame_setPc _ rfl⟩⟩

/-! ### CALL and RET with room on the stack (R58, R60) -/

/-- CALL with `k` entries in use: the advanced PC goes to entry `k`. -/
theorem exec_call_of_sp {s : State} {k : Fin 16} (nnn : Imm12) (hk : s.sp.val = k.val) : exec (.call nnn) s =
    .next (setPc (setSp (setStack s (s.stack.set k.val s.pc)) k.succ) (targetOf nnn)) := by
  rw [exec_call, execCall_of_lt nnn (hk ▸ k.isLt)]
  simp only [hk]
  rfl

/-- RET with `k + 1` entries in use: PC comes from entry `k`. -/
theorem exec_ret_of_sp {s : State} {k : Fin 16} (hk : s.sp.val = k.val + 1) :
    exec .ret s = .next (setPc (setSp s k.castSucc) s.stack[k]) := by
  rw [exec_ret, execRet_of_pos (by omega)]
  simp only [hk]
  rfl

theorem frame_setStack_set {p : Element → Prop} {s : State} {k : Fin 16} (w : Word) (hp : p (.s k)) :
    Frame p s (setStack s (s.stack.set k.val w)) := by
  refine frame_setStack fun j hj => ?_
  have hne : k.val ≠ j.val := fun e => hj (Fin.ext e ▸ hp)
  exact Vector.getElem_set_ne _ _ hne

/-- Settles O26: RET takes PC and SP back to what they were before the CALL, so the two leave the state as it was but for
the entry that the CALL wrote. -/
theorem retAfterCallReturns : Obligations.RetAfterCallReturns := by
  intro nnn s k hk
  have hsp : k.castSucc = s.sp := Fin.ext hk.symm
  have htop : (s.stack.set k.val s.pc)[k] = s.pc := Vector.getElem_set_self _
  refine ⟨_, setStack s (s.stack.set k.val s.pc), exec_call_of_sp nnn hk, ?_, rfl, rfl, frame_setStack_set s.pc rfl⟩
  rw [exec_ret_of_sp rfl, hsp, setPc_stack, setSp_stack, setStack_stack, htop]
  rfl

/-! ### CALL and RET that fault: the step is undone (R58, R60, R92) -/

theorem step_ret_of_empty {s : State} (hn : s.faultReg = .none) (hi : decodeWord (fetchWord s) = .instr .ret)
    (hsp : s.sp = 0) : step s = .next (setFault s .stackUnderflow) := by
  rw [step_of_instr hn hi, exec_ret, execRet_of_empty (s := advancePc s) hsp, raiseFault_advancePc]

theorem step_call_of_full {s : State} {nnn : Imm12} (hn : s.faultReg = .none)
    (hi : decodeWord (fetchWord s) = .instr (.call nnn)) (hsp : s.sp = 16) :
    step s = .next (setFault s .stackOverflow) := by
  rw [step_of_instr hn hi, exec_call, execCall_of_full (s := advancePc s) nnn hsp, raiseFault_advancePc]

/-- Settles O23: the pop with an entry in use, and the undone step without one. -/
theorem retPopsOrUnderflows : Obligations.RetPopsOrUnderflows := by
  have hdec : decodeWord 0x00EE = .instr .ret := decodeWord_encode (i := .ret) rfl
  refine ⟨hdec, fun s k hk => ?_, fun s hn hw hsp => ?_⟩
  · exact ⟨_, exec_ret_of_sp hk, rfl, rfl, (frame_setSp _ (.inr rfl)).trans (frame_setPc _ (.inl rfl))⟩
  · exact ⟨_, step_ret_of_empty hn (hw ▸ hdec) hsp, rfl, frame_setFault _ rfl⟩

/-- Settles O25: the push with room, and the undone step without it. -/
theorem callPushesOrOverflows : Obligations.CallPushesOrOverflows := by
  intro nnn
  have hdec : decodeWord (wordA 0x2 nnn) = .instr (.call nnn) := decodeWord_encode (i := .call nnn) rfl
  refine ⟨hdec, fun s k hk => ?_, fun s hn hw hsp => ?_⟩
  · refine ⟨_, exec_call_of_sp nnn hk, Vector.getElem_set_self _, rfl, targetOf_toNat nnn, ?_⟩
    exact ((frame_setStack_set s.pc (.inl rfl)).trans (frame_setSp _ (.inr (.inl rfl)))).trans
      (frame_setPc _ (.inr (.inr rfl)))
  · exact ⟨_, step_call_of_full hn (hw ▸ hdec) hsp, rfl, frame_setFault _ rfl⟩

/-! ### The skips (R62 to R65) -/

/-- A skip whose test is true under `P` and false under `Q`: under `P` PC advances by a further 2, under `Q` it stays. -/
theorem skipIf_spec {P Q : Prop} {c : Bool} (hskip : P → c = true) (hstay : Q → c = false) (s : State) :
    (P → (skipIf c s).pc.toNat = (s.pc.toNat + 2) % 65536) ∧ (Q → (skipIf c s).pc = s.pc) ∧
      Frame (only .pc) s (skipIf c s) := by
  refine ⟨fun hP => ?_, fun hQ => ?_, frame_skipIf c rfl⟩
  · rw [skipIf_pc, if_pos (hskip hP)]
    exact BitVec.toNat_add s.pc 2
  · rw [hstay hQ]
    rfl

/-- Settles O28: the test of each skip decides its condition. -/
theorem immediateSkipsCompareVxWithNn : Obligations.ImmediateSkipsCompareVxWithNn := fun x nn =>
  ⟨decodeWord_encode (i := .seImm x nn) rfl, decodeWord_encode (i := .sneImm x nn) rfl,
    fun s => ⟨_, rfl, skipIf_spec beq_iff_eq.2 beq_eq_false_iff_ne.2 s⟩,
    fun s => ⟨_, rfl, skipIf_spec bne_iff_ne.2 bne_eq_false_iff_eq.2 s⟩⟩

theorem fieldN_wordRR_ne_zero (f : BitVec 4) (x y : Reg) {n : BitVec 4} (hn : n ≠ 0) : fieldN (wordRR f x y n) ≠ 0 :=
  fun h => hn (BitVec.eq_of_toNat_eq ((fieldN_wordRR_eq_iff f x y n 0).1 h))

/-- Settles O29: the test of each skip decides its condition, and R47 lists the words with another low digit. -/
theorem registerSkipsCompareVxWithVy : Obligations.RegisterSkipsCompareVxWithVy := by
  intro x y
  refine ⟨decodeWord_encode (i := .seReg x y) rfl, decodeWord_encode (i := .sneReg x y) rfl, fun n hn => ⟨?_, ?_⟩,
    fun s => ⟨_, rfl, skipIf_spec beq_iff_eq.2 beq_eq_false_iff_ne.2 s⟩,
    fun s => ⟨_, rfl, skipIf_spec bne_iff_ne.2 bne_eq_false_iff_eq.2 s⟩⟩
  · have hwords := unrecognizedWord_family5 (fieldFamily_wordRR 0x5 x y n)
    exact decodeWord_of_unrecognized (hwords.2 (fieldN_wordRR_ne_zero 0x5 x y hn))
  · have hwords := unrecognizedWord_family9 (fieldFamily_wordRR 0x9 x y n)
    exact decodeWord_of_unrecognized (hwords.2 (fieldN_wordRR_ne_zero 0x9 x y hn))

end Sys2Proof.Machine
end

section
/-! PROOF. Loads, arithmetic and logic (spec 42_alu.md R66 to R77): what each instruction puts in its destination, what the
flag setters put in VF (R49), and that nothing else changes. -/

namespace Sys2Proof.Machine

/-! ### Loads, immediate addition and logic: only the destination (R66 to R71) -/

/-- Settles O30: the write of NN to Vx. -/
theorem ldImmLoadsNn : Obligations.LdImmLoadsNn := fun x nn =>
  ⟨decodeWord_encode (i := .ldImm x nn) rfl, fun s => ⟨_, rfl, readV_writeV_same s x nn, frame_writeV nn rfl⟩⟩

/-- Settles O31: the sum of bytes is the sum of their numbers modulo 256. -/
theorem addImmWrapsWithoutFlag : Obligations.AddImmWrapsWithoutFlag := by
  intro x nn
  refine ⟨decodeWord_encode (i := .addImm x nn) rfl, fun s => ⟨_, rfl, ?_, frame_writeV _ rfl⟩⟩
  rw [readV_writeV_same, BitVec.toNat_add]

/-- Settles O32: each operation on bytes acts bit by bit. -/
theorem copyAndLogicWriteNoFlag : Obligations.CopyAndLogicWriteNoFlag := by
  intro x y
  refine ⟨⟨decodeWord_encode (i := .ldReg x y) rfl, decodeWord_encode (i := .orReg x y) rfl,
      decodeWord_encode (i := .andReg x y) rfl, decodeWord_encode (i := .xorReg x y) rfl⟩,
    fun s => ⟨_, rfl, readV_writeV_same _ _ _, frame_writeV _ rfl⟩,
    fun s => ⟨_, rfl, fun j => ?_, frame_writeV _ rfl⟩,
    fun s => ⟨_, rfl, fun j => ?_, frame_writeV _ rfl⟩,
    fun s => ⟨_, rfl, fun j => ?_, frame_writeV _ rfl⟩⟩
  · rw [readV_writeV_same, BitVec.getLsbD_or]
  · rw [readV_writeV_same, BitVec.getLsbD_and]
  · rw [readV_writeV_same, BitVec.getLsbD_xor]

/-! ### The results and flags of 8XY4 to 8XYE as numbers (R72 to R76) -/

theorem flagByte_decide (p : Prop) [Decidable p] : flagByte (decide p) = if p then 1 else 0 := by
  simp only [flagByte, decide_eq_true_eq]

theorem flagByte_toNat (c : Bool) : (flagByte c).toNat = c.toNat := by cases c <;> rfl

theorem carryFlag_eq (a b : Byte) : carryFlag a b = if a.toNat + b.toNat > 255 then 1 else 0 := flagByte_decide _

theorem noBorrowFlag_eq (a b : Byte) : noBorrowFlag a b = if a.toNat > b.toNat then 1 else 0 := flagByte_decide _

/-- The bit a right shift drops is the number's remainder by 2. -/
theorem shrFlag_toNat (b : Byte) : (shrFlag b).toNat = b.toNat % 2 := by
  rw [shrFlag, flagByte_toNat, BitVec.getLsbD, Nat.toNat_testBit, pow_zero, Nat.div_one]

/-- The bit a left shift drops is the number's quotient by 128, which is below 2. -/
theorem shlFlag_toNat (b : Byte) : (shlFlag b).toNat = b.toNat / 128 := by
  rw [shlFlag, flagByte_toNat, BitVec.getLsbD, Nat.toNat_testBit]
  omega

theorem sub_toNat_mod_256 (a b : Byte) : (a - b).toNat = (a.toNat + 256 - b.toNat) % 256 := by
  rw [BitVec.toNat_sub]
  omega

theorem ushiftRight_one_toNat (b : Byte) : (b >>> 1).toNat = b.toNat / 2 := by
  rw [BitVec.toNat_ushiftRight, Nat.shiftRight_one]

theorem shiftLeft_one_toNat (b : Byte) : (b <<< 1).toNat = b.toNat * 2 % 256 := by
  rw [BitVec.toNat_shiftLeft, Nat.shiftLeft_eq, pow_one]

/-! ### The flag setters: VF is written last (R49) -/

/-- A flag setter with result `b` and flag `flag`: Vx holds the result unless it is VF, VF holds the flag in any case, and
no other register changes. -/
theorem writeVFlag_spec {b flag : Byte} {n : Nat} {F : Byte → Prop} (hb : b.toNat = n) (hflag : F flag) (x : Reg)
    (s : State) :
    (x ≠ vf → (readV (writeVFlag s x b flag) x).toNat = n) ∧ F (readV (writeVFlag s x b flag) vf) ∧
      Frame (destAndFlag x) s (writeVFlag s x b flag) := by
  refine ⟨fun hx => ?_, ?_, frame_writeVFlag b flag (.inl rfl) (.inr rfl)⟩
  · rw [readV_writeVFlag, if_neg hx, if_pos rfl, hb]
  · rwa [readV_writeVFlag, if_pos rfl]

/-- Settles O33: the sum modulo 256 and its carry. -/
theorem addRegSetsCarry : Obligations.AddRegSetsCarry := fun x y =>
  ⟨decodeWord_encode (i := .addReg x y) rfl,
    fun s => ⟨_, rfl, writeVFlag_spec (F := (· = _)) (BitVec.toNat_add _ _) (carryFlag_eq _ _) x s⟩⟩

/-- Settles O34: both differences modulo 256, each with its strict comparison. -/
theorem subtractionsSetStrictNoBorrow : Obligations.SubtractionsSetStrictNoBorrow := fun x y =>
  ⟨decodeWord_encode (i := .subReg x y) rfl, decodeWord_encode (i := .subn x y) rfl,
    fun s => ⟨_, rfl, writeVFlag_spec (F := (· = _)) (sub_toNat_mod_256 _ _) (noBorrowFlag_eq _ _) x s⟩,
    fun s => ⟨_, rfl, writeVFlag_spec (F := (· = _)) (sub_toNat_mod_256 _ _) (noBorrowFlag_eq _ _) x s⟩⟩

/-- Settles O35: half and double of Vy, each with the bit that falls out. -/
theorem shiftsTakeVyAndSetTheLostBit : Obligations.ShiftsTakeVyAndSetTheLostBit := fun x y =>
  ⟨decodeWord_encode (i := .shr x y) rfl, decodeWord_encode (i := .shl x y) rfl,
    fun s => ⟨_, rfl, writeVFlag_spec (F := (·.toNat = _)) (ushiftRight_one_toNat _) (shrFlag_toNat _) x s⟩,
    fun s => ⟨_, rfl, writeVFlag_spec (F := (·.toNat = _)) (shiftLeft_one_toNat _) (shlFlag_toNat _) x s⟩⟩

/-! ### CXNN (R77, R103) -/

/-- Settles O36: the masked byte is written to the state in which it has been drawn. -/
theorem rndMasksOneRandomByte : Obligations.RndMasksOneRandomByte := fun x nn =>
  ⟨decodeWord_encode (i := .rnd x nn) rfl,
    fun s => ⟨_, rfl, readV_writeV_same _ x (Config.rand s.draws &&& nn), rfl, execRnd_onlyChanges x nn rfl⟩⟩

end Sys2Proof.Machine
end

section
/-! PROOF. Index register and memory (spec 43_index_memory.md R78 to R83): what each instruction puts in I, the bytes FX33 and
FX55 store and the registers FX65 loads. Addresses from I are reduced one by one modulo 4096 (R31). -/

namespace Sys2Proof.Machine

/-! ### The index register (R78 to R80) -/

/-- Settles O37: I takes the zero-extended NNN. -/
theorem ldISetsI : Obligations.LdISetsI := fun nnn =>
  ⟨decodeWord_encode (i := .ldI nnn) rfl, fun _ => ⟨_, rfl, targetOf_toNat nnn, frame_setI _ rfl⟩⟩

theorem add_zeroExtend_toNat (w : Word) (b : Byte) : (w + b.zeroExtend 16).toNat = (w.toNat + b.toNat) % 65536 := by
  have hb : (b.zeroExtend 16).toNat = b.toNat := BitVec.toNat_setWidth_of_le (by decide)
  rw [BitVec.toNat_add, hb]

/-- Settles O38: the sum in 16 bits is the sum of the numbers modulo 65536. -/
theorem addIAddsVxModulo65536 : Obligations.AddIAddsVxModulo65536 := fun x =>
  ⟨decodeWord_encode (i := .addI x) rfl,
    fun s => ⟨_, rfl, add_zeroExtend_toNat s.i (readV s x), frame_setI _ rfl⟩⟩

/-- The greatest font character address, for the byte 255, is far below 65536. -/
theorem glyphAddr_toNat (d : Byte) : (glyphAddr d).toNat = 0x050 + 5 * d.toNat := by
  have hlt : 0x050 + 5 * d.toNat < 65536 := by omega
  exact Nat.mod_eq_of_lt hlt

/-- Settles O39: I takes the font character address of Vx. -/
theorem ldFPointsAtTheGlyph : Obligations.LdFPointsAtTheGlyph := fun x =>
  ⟨decodeWord_encode (i := .ldF x) rfl, fun s => ⟨_, rfl, glyphAddr_toNat (readV s x), frame_setI _ rfl⟩⟩

/-! ### FX33: the decimal digits (R81) -/

/-- A number below 256 is the number of the byte it makes. -/
theorem ofNat_toNat_of_lt {n : Nat} (h : n < 256) : (BitVec.ofNat 8 n).toNat = n := Nat.mod_eq_of_lt h

theorem bcdHundreds_toNat (b : Byte) : (bcdHundreds b).toNat = b.toNat / 100 := ofNat_toNat_of_lt (by omega)

theorem bcdTens_toNat (b : Byte) : (bcdTens b).toNat = b.toNat / 10 % 10 := ofNat_toNat_of_lt (by omega)

theorem bcdOnes_toNat (b : Byte) : (bcdOnes b).toNat = b.toNat % 10 := ofNat_toNat_of_lt (by omega)

/-- Two offsets below 4096 from I never meet modulo 4096. -/
theorem indexAddr_mod_ne (s : State) {j k : Nat} (hj : j < 4096) (hk : k < 4096) (hne : j ≠ k) :
    indexAddr s j % 4096 ≠ indexAddr s k % 4096 := by
  unfold indexAddr
  omega

section LdB

variable {x : Reg} {s t : State} (h : exec (.ldB x) s = .next t)
include h

/-- The writes of FX33, the last first. -/
theorem memRead_exec_ldB (a : Nat) : memRead t.mem a =
    if a % 4096 = indexAddr s 2 % 4096 then bcdOnes (readV s x)
    else if a % 4096 = indexAddr s 1 % 4096 then bcdTens (readV s x)
    else if a % 4096 = indexAddr s 0 % 4096 then bcdHundreds (readV s x)
    else memRead s.mem a := by
  cases h
  simp only [setMem_mem, memRead_memWrite]

theorem memRead_exec_ldB_ones : memRead t.mem (indexAddr s 2) = bcdOnes (readV s x) := by
  rw [memRead_exec_ldB h, if_pos rfl]

theorem memRead_exec_ldB_tens : memRead t.mem (indexAddr s 1) = bcdTens (readV s x) := by
  have h12 := indexAddr_mod_ne s (j := 1) (k := 2) (by decide) (by decide) (by decide)
  rw [memRead_exec_ldB h, if_neg h12, if_pos rfl]

theorem memRead_exec_ldB_hundreds : memRead t.mem (indexAddr s 0) = bcdHundreds (readV s x) := by
  have h02 := indexAddr_mod_ne s (j := 0) (k := 2) (by decide) (by decide) (by decide)
  have h01 := indexAddr_mod_ne s (j := 0) (k := 1) (by decide) (by decide) (by decide)
  rw [memRead_exec_ldB h, if_neg h02, if_neg h01, if_pos rfl]

theorem memRead_exec_ldB_of_ne {a : Nat} (ha : ∀ k, k < 3 → a % 4096 ≠ indexAddr s k % 4096) :
    memRead t.mem a = memRead s.mem a := by
  rw [memRead_exec_ldB h, if_neg (ha 2 (by decide)), if_neg (ha 1 (by decide)), if_neg (ha 0 (by decide))]

end LdB

/-- Settles O40: the three writes go to three different bytes, and each digit fits in its byte. -/
theorem ldBStoresThreeDigits : Obligations.LdBStoresThreeDigits := by
  intro x
  refine ⟨decodeWord_encode (i := .ldB x) rfl, fun s => ⟨_, rfl, ?_, ?_, ?_, fun a => memRead_exec_ldB_of_ne rfl,
    exec_frame (i := .ldB x) nofun rfl⟩⟩
  · rw [memRead_exec_ldB_hundreds rfl, bcdHundreds_toNat]
  · rw [memRead_exec_ldB_tens rfl, bcdTens_toNat]
  · rw [memRead_exec_ldB_ones rfl, bcdOnes_toNat]

/-! ### FX55 and FX65: register blocks (R82, R83) -/

/-- FX55 leaves every byte but those at the addresses of V0..Vx. -/
theorem memRead_exec_storeRegs_of_ne {x : Reg} {s t : State} {a : Nat} (h : exec (.storeRegs x) s = .next t)
    (ha : ∀ k : Reg, k ≤ x → a % 4096 ≠ indexAddr s k.val % 4096) : memRead t.mem a = memRead s.mem a := by
  cases h
  exact memRead_storeBlock_of_notMem s.v (indexAddr s 0) (regsUpTo x) s.mem a fun k hk => ha k ((mem_regsUpTo x k).1 hk)

/-- Settles O41: the bytes at the addresses of V0..Vx, and every other byte. -/
theorem storeRegsStoresV0ToVx : Obligations.StoreRegsStoresV0ToVx := fun x =>
  ⟨decodeWord_encode (i := .storeRegs x) rfl, fun _ => ⟨_, rfl, fun _ => memRead_exec_storeRegs rfl,
    fun _ => memRead_exec_storeRegs_of_ne rfl, exec_frame (i := .storeRegs x) nofun rfl⟩⟩

/-- FX65 puts the byte at its address in each of V0..Vx. -/
theorem readV_exec_loadRegs {x k : Reg} {s t : State} (h : exec (.loadRegs x) s = .next t) (hk : k ≤ x) :
    readV t k = memRead s.mem (indexAddr s k.val) := by
  cases h
  rw [setRegs_readV, loadBlock_get, if_pos ((mem_regsUpTo x k).2 hk)]
  rfl

/-- Settles O42: V0..Vx by the load of the block, and every other element by the frame of FX65. -/
theorem loadRegsLoadsV0ToVx : Obligations.LoadRegsLoadsV0ToVx := fun x =>
  ⟨decodeWord_encode (i := .loadRegs x) rfl,
    fun _ => ⟨_, rfl, fun _ => readV_exec_loadRegs rfl, exec_frame (i := .loadRegs x) nofun rfl⟩⟩

/-- Settles O43: FX65 reads each register from the address FX55 stored it at, since I is the same. -/
theorem loadRegsRestoresWhatStoreRegsSaved : Obligations.LoadRegsRestoresWhatStoreRegsSaved := by
  intro x s t hstore r hmem hi
  refine ⟨_, rfl, fun k hk => ?_⟩
  have haddr : indexAddr r k.val = indexAddr s k.val := by rw [indexAddr, hi, indexAddr]
  rw [readV_exec_loadRegs rfl hk, hmem, haddr, memRead_exec_storeRegs hstore hk]

/-! ### FX29 and then F465: a glyph (R80, R83) -/

theorem exec_ldF_mem {x : Reg} {s t : State} (h : exec (.ldF x) s = .next t) : t.mem = s.mem := by
  cases h
  rfl

/-- After FX29 byte `k` from I is byte `5 * Vx + k` of the font region. -/
theorem indexAddr_exec_ldF {x : Reg} {s t : State} (h : exec (.ldF x) s = .next t) (k : Nat) :
    indexAddr t k = 0x050 + (5 * (readV s x).toNat + k) := by
  cases h
  rw [indexAddr, setI_i, glyphAddr_toNat, Nat.add_assoc]

/-- Settles O44: the five bytes F465 loads lie in the font region, since Vx is at most 15. -/
theorem glyphBytesAreFoundThroughI : Obligations.GlyphBytesAreFoundThroughI := by
  intro x s t hx hfont h
  refine ⟨_, rfl, fun k hk => ?_⟩
  have hk4 : k.val ≤ 4 := hk
  rw [readV_exec_loadRegs rfl hk, exec_ldF_mem h, indexAddr_exec_ldF h, hfont _ (by omega)]

end Sys2Proof.Machine
end

section
/-! PROOF. Keys and timers (spec 44_timers_keys.md R84 to R89): the skips on a key with their fault, the copies to
and from the timers, and the wait for a key. -/

namespace Sys2Proof.Machine

/-! ### The skips on a key (R84, R85) -/

/-- A register that holds the number of a key names that key. -/
theorem keyIndex_of_toNat_eq {b : Byte} {k : Reg} (hk : b.toNat = k.val) : keyIndex b = some k := by
  have hlt : b.toNat < 16 := hk ▸ k.isLt
  rw [keyIndex_of_le b hlt]
  exact congrArg some (Fin.ext hk)

theorem keyIndex_of_gt_fifteen {b : Byte} (h : b.toNat > 15) : keyIndex b = none := keyIndex_of_gt b (by omega)

/-- A step whose instruction raises a fault is undone but for FAULT (R92). -/
theorem step_of_raiseFault {s : State} {i : Instr} {c : FaultCause} (hn : s.faultReg = .none)
    (hi : decodeWord (fetchWord s) = .instr i) (hraise : exec i (advancePc s) = .next (raiseFault c (advancePc s))) :
    step s = .next (setFault s c) := by
  rw [step_of_instr hn hi, hraise, raiseFault_advancePc]

/-- Settles O46: the skip tests the key Vx names; where Vx names none, the fault undoes the step. -/
theorem skpSkipsOnAPressedKey : Obligations.SkpSkipsOnAPressedKey := by
  intro x
  have hdec : decodeWord (wordRI 0xE x 0x9E) = .instr (.skp x) := decodeWord_encode (i := .skp x) rfl
  refine ⟨hdec, fun s k hk => ?_, fun s hn hw hx => ?_⟩
  · exact ⟨_, execSkp_of_some (keyIndex_of_toNat_eq hk), skipIf_spec id id s⟩
  · have hraise : exec (.skp x) (advancePc s) = _ := execSkp_of_none (keyIndex_of_gt_fifteen hx)
    exact ⟨_, step_of_raiseFault hn (hw ▸ hdec) hraise, rfl, frame_setFault _ rfl⟩

/-- Settles O47: the skip tests the negation of the key Vx names; where Vx names none, the fault undoes the step. -/
theorem sknpSkipsOnAReleasedKey : Obligations.SknpSkipsOnAReleasedKey := by
  intro x
  have hdec : decodeWord (wordRI 0xE x 0xA1) = .instr (.sknp x) := decodeWord_encode (i := .sknp x) rfl
  refine ⟨hdec, fun s k hk => ?_, fun s hn hw hx => ?_⟩
  · exact ⟨_, execSknp_of_some (keyIndex_of_toNat_eq hk),
      skipIf_spec (Bool.not_eq_true' _).mpr (Bool.not_eq_false' _).mpr s⟩
  · have hraise : exec (.sknp x) (advancePc s) = _ := execSknp_of_none (keyIndex_of_gt_fifteen hx)
    exact ⟨_, step_of_raiseFault hn (hw ▸ hdec) hraise, rfl, frame_setFault _ rfl⟩

/-! ### The timers (R86, R88, R89) -/

/-- Settles O48: each copy is one write, to Vx, to DT or to ST. -/
theorem timerCopies : Obligations.TimerCopies := fun x =>
  ⟨⟨decodeWord_encode (i := .ldVxDt x) rfl, decodeWord_encode (i := .ldDtVx x) rfl,
      decodeWord_encode (i := .ldStVx x) rfl⟩,
    fun s => ⟨_, rfl, readV_writeV_same s x s.dt, frame_writeV s.dt rfl⟩,
    fun s => ⟨_, rfl, setDt_dt s (readV s x), frame_setDt (readV s x) rfl⟩,
    fun s => ⟨_, rfl, setSt_st s (readV s x), frame_setSt (readV s x) rfl⟩⟩

/-! ### The wait for a key (R87) -/

theorem rewindPc_pc_toNat (s : State) : (rewindPc s).pc.toNat = (s.pc.toNat + 65536 - 2) % 65536 := by
  have htwo : (2 : Word).toNat = 2 := rfl
  rw [rewindPc_pc, BitVec.toNat_sub, htwo]
  omega

/-- Taking PC back by 2 undoes the fetch's advance, modulo 65536 too. -/
@[simp] theorem rewindPc_advancePc (s : State) : rewindPc (advancePc s) = s := by
  have hpc : (advancePc s).pc - 2 = s.pc := BitVec.add_sub_cancel s.pc 2
  rw [rewindPc, hpc]
  rfl

/-- The key found is a number below 16, so Vx holds it unchanged. -/
theorem readV_writeV_key (s : State) (x k : Reg) : (readV (writeV s x (BitVec.ofNat 8 k.val)) x).toNat = k.val := by
  rw [readV_writeV_same, ofNat_toNat_of_lt (by omega)]

/-- With no key pressed a step of FX0A changes nothing. -/
theorem step_ldVxK_of_none {x : Reg} {s : State} (hn : s.faultReg = .none)
    (hi : decodeWord (fetchWord s) = .instr (.ldVxK x)) (hkeys : firstKey s.keys = none) : step s = .next s := by
  rw [step_of_instr hn hi, exec_ldVxK, execLdVxK_of_none (s := advancePc s) hkeys, rewindPc_advancePc]

/-- Settles O49: the least pressed key is the one found; with none found, the rewind undoes the fetch's advance. -/
theorem waitForKeyTakesTheLeastOrRewinds : Obligations.WaitForKeyTakesTheLeastOrRewinds := by
  intro x
  have hdec : decodeWord (wordRI 0xF x 0x0A) = .instr (.ldVxK x) := decodeWord_encode (i := .ldVxK x) rfl
  refine ⟨hdec, fun s k hk hlow => ?_, fun s hnone => ?_, fun s hn hw hnone => ?_⟩
  · have hfirst : firstKey s.keys = some k := (firstKey_eq_some s.keys k).2 ⟨hk, hlow⟩
    exact ⟨_, execLdVxK_of_some hfirst, readV_writeV_key s x k, frame_writeV _ rfl⟩
  · have hfirst : firstKey s.keys = none := (firstKey_eq_none s.keys).2 hnone
    exact ⟨_, execLdVxK_of_none hfirst, rewindPc_pc_toNat s, frame_setPc _ rfl⟩
  · exact step_ldVxK_of_none hn (hw ▸ hdec) ((firstKey_eq_none s.keys).2 hnone)

end Sys2Proof.Machine
end

section
/-! PROOF. The host's operations (spec 60_exceptions.md R100 to R102): the tick, the key update and the pixel query. -/

namespace Sys2Proof.Machine

/-! ### Frames of the operations that change state (R100, R101) -/

theorem frame_tick {p : Element → Prop} (s : State) (hdt : p .dt) (hst : p .st) : Frame p s (tick s) :=
  (frame_setDt _ hdt).trans (frame_setSt _ hst)

theorem frame_setKeys {p : Element → Prop} (k : Vector Bool 16) (s : State) (hp : ∀ j, p (.k j)) :
    Frame p s (setKeys k s) := by
  refine ⟨fun e he => ?_, rfl⟩
  cases e with
  | k j => exact absurd (hp j) he
  | _ => rfl

/-- Settles O50: each timer is set to its tick-down, DT first. -/
theorem tickDecrementsBothTimers : Obligations.TickDecrementsBothTimers := fun s =>
  ⟨tickDown_toNat s.dt, tickDown_toNat s.st, frame_tick s (.inl rfl) (.inr rfl)⟩

/-- Settles O51: the key matrix becomes the given one. -/
theorem keyUpdateReplacesAllKeys : Obligations.KeyUpdateReplacesAllKeys := fun k s =>
  ⟨fun _ => rfl, frame_setKeys k s fun j => ⟨j, rfl⟩⟩

/-! ### The pixel query (R102) -/

/-- A column below 64 that is congruent to `x` modulo 64 is the remainder of `x`. -/
theorem columnOf_eq_of_dvd {x : Int} {px : Fin 64} (h : (64 : Int) ∣ x - px.val) : columnOf x = px := by
  apply Fin.ext
  change (x % 64).toNat = px.val
  omega

/-- A row below 32 that is congruent to `y` modulo 32 is the remainder of `y`. -/
theorem rowOf_eq_of_dvd {y : Int} {py : Fin 32} (h : (32 : Int) ∣ y - py.val) : rowOf y = py := by
  apply Fin.ext
  change (y % 32).toNat = py.val
  omega

/-- Settles O52: the query reads the pixel of the two remainders. -/
theorem pixelQueryWraps : Obligations.PixelQueryWraps := by
  intro s x y px py hx hy
  rw [getPx, columnOf_eq_of_dvd hx, rowOf_eq_of_dvd hy]

end Sys2Proof.Machine
end

section
/-! PROOF. Faults (spec 60_exceptions.md R91 to R94), the random byte (R103) and the quiescent conditions (R110). -/

namespace Sys2Proof.Machine

/-! ### A faulted core (R93, R94) -/

/-- What the host can still change of a faulted core: the timers by a tick, the keys by a key update (R93). -/
def TimerOrKey : Element → Prop := fun e => e = .dt ∨ e = .st ∨ ∃ j, e = .k j

/-- On a faulted core a step changes nothing, and a tick and a key update keep FAULT and write what they always do. -/
theorem applyOp_of_faulted {op : HostOp} {s t : State} (hf : s.faultReg ≠ .none) (h : applyOp op s = .next t) :
    t.faultReg = s.faultReg ∧ Frame TimerOrKey s t := by
  cases op with
  | step =>
    cases (step_of_faulted hf).symm.trans h
    exact ⟨rfl, .refl _ _⟩
  | tick => cases h; exact ⟨rfl, frame_tick s (.inl rfl) (.inr (.inl rfl))⟩
  | setKeys k => cases h; exact ⟨rfl, frame_setKeys k s fun j => .inr (.inr ⟨j, rfl⟩)⟩

/-- The operations of a run from a faulted core each find it faulted with the same cause, so their frames compose. -/
theorem runOps_of_faulted {ops : List HostOp} {s t : State} (hf : s.faultReg ≠ .none) (h : runOps ops s = .next t) :
    t.faultReg = s.faultReg ∧ Frame TimerOrKey s t := by
  induction ops generalizing s with
  | nil => cases h; exact ⟨rfl, .refl _ _⟩
  | cons op ops ih =>
    obtain ⟨u, hu⟩ := applyOp_total op s
    obtain ⟨hfault, hframe⟩ := applyOp_of_faulted hf hu
    obtain ⟨hfault', hframe'⟩ := ih (hfault.symm ▸ hf) ((runOps_cons_of_next hu ops).symm.trans h)
    exact ⟨hfault'.trans hfault, hframe.trans hframe'⟩

/-- Settles O13, by induction on the operations. -/
theorem noRunLeavesAFault : Obligations.NoRunLeavesAFault :=
  fun _ _ _ hf h => runOps_of_faulted hf h

/-- Settles O12: only step tests FAULT, and no query but that of FAULT reads it. -/
theorem faultedCoreStepsInPlace : Obligations.FaultedCoreStepsInPlace := by
  intro s hf
  have hquery : Frame (only .fault) s (setFault s .none) := frame_setFault _ rfl
  exact ⟨step_of_faulted hf, tickDown_toNat s.dt, tickDown_toNat s.st, fun _ => rfl, fun _ _ => rfl,
    fun e he => (hquery.1 e he).symm, rfl⟩

/-! ### Which fault an instruction raises (R91) -/

/-- KEY_RANGE when a register holds `b` above 15, else none (R84, R85). -/
def keyFault (b : Byte) : FaultCause := if b.toNat > 15 then .keyRange else .none

/-- The fault that executing `i` in `s` raises, NONE if it raises none (R58, R60, R84, R85, R91). -/
def faultOf (i : Instr) (s : State) : FaultCause :=
  match i with
  | .ret => if s.sp = 0 then .stackUnderflow else .none
  | .call _ => if s.sp = 16 then .stackOverflow else .none
  | .skp x | .sknp x => keyFault (readV s x)
  | _ => .none

/-- A register that names no key is above 15: one below 16 names a key. -/
theorem gt_fifteen_of_keyIndex_eq_none {b : Byte} (h : keyIndex b = none) : b.toNat > 15 :=
  Nat.lt_of_not_ge fun hle => nomatch h.symm.trans (keyIndex_of_le b (Nat.lt_succ_of_le hle))

/-- The two outcomes of a skip on a key, whatever the test `c` of the key: KEY_RANGE, or FAULT kept. -/
theorem keyFault_cases {x : Reg} {s t : State} {c : Reg → Bool}
    (h : (keyIndex (readV s x) = none ∧ t = raiseFault .keyRange s) ∨
      ∃ k, keyIndex (readV s x) = some k ∧ t = skipIf (c k) s) :
    (keyFault (readV s x) = .none ∧ t.faultReg = s.faultReg) ∨ t = raiseFault (keyFault (readV s x)) s := by
  obtain ⟨hk, rfl⟩ | ⟨k, hk, rfl⟩ := h
  · rw [keyFault, if_pos (gt_fifteen_of_keyIndex_eq_none hk)]
    exact .inr rfl
  · have hle : ¬ (readV s x).toNat > 15 := fun hgt => nomatch hk.symm.trans (keyIndex_of_gt_fifteen hgt)
    exact .inl ⟨if_neg hle, skipIf_faultReg _ s⟩

/-- An instruction that raises no fault keeps FAULT; one that raises a fault does nothing else. -/
theorem exec_fault_cases {i : Instr} {s t : State} (h : exec i s = .next t) :
    (faultOf i s = .none ∧ t.faultReg = s.faultReg) ∨ t = raiseFault (faultOf i s) s := by
  cases i with
  | ret =>
    obtain ⟨hsp, rfl⟩ | ⟨hsp, rfl⟩ := execRet_cases h
    · rw [faultOf, if_pos hsp]
      exact .inr rfl
    · exact .inl ⟨if_neg fun e => hsp (congrArg Fin.val e), rfl⟩
  | call nnn =>
    obtain ⟨hsp, rfl⟩ | ⟨hlt, rfl⟩ := execCall_cases h
    · rw [faultOf, if_pos hsp]
      exact .inr rfl
    · exact .inl ⟨if_neg fun e => (sp_eq_sixteen_iff s).1 e hlt, rfl⟩
  | skp x => exact keyFault_cases (execSkp_cases h)
  | sknp x => exact keyFault_cases (execSknp_cases h)
  | ldVxK => obtain ⟨-, rfl⟩ | ⟨k, -, rfl⟩ := execLdVxK_cases h <;> exact .inl ⟨rfl, rfl⟩
  | seImm | sneImm | seReg | sneReg => cases h; exact .inl ⟨rfl, skipIf_faultReg _ s⟩
  | _ => cases h; exact .inl ⟨rfl, rfl⟩

section Causes

variable (i : Instr) (s : State)

theorem faultOf_eq_stackOverflow_iff : faultOf i s = .stackOverflow ↔ (∃ nnn, i = .call nnn) ∧ s.sp = 16 := by
  cases i <;> simp [faultOf, keyFault, ite_eq_iff]

theorem faultOf_eq_stackUnderflow_iff : faultOf i s = .stackUnderflow ↔ i = .ret ∧ s.sp = 0 := by
  cases i <;> simp [faultOf, keyFault, ite_eq_iff]

theorem faultOf_eq_keyRange_iff :
    faultOf i s = .keyRange ↔ ∃ x, (i = .skp x ∨ i = .sknp x) ∧ (readV s x).toNat > 15 := by
  cases i <;> simp [faultOf, keyFault, ite_eq_iff]

end Causes

/-! ### Steps that raise a fault (R91, R92) -/

/-- A step of a core without a fault undoes itself but for FAULT, or ends without a fault. -/
theorem step_fault_cases {s t : State} (hn : s.faultReg = .none) (h : step s = .next t) :
    t.faultReg = .none ∨ ∃ c, t = setFault s c := by
  obtain ⟨hf, -⟩ | ⟨-, i, -, hexec⟩ | ⟨-, -, rfl⟩ := step_cases h
  · exact absurd hn hf
  · obtain ⟨-, hkeep⟩ | hraise := exec_fault_cases hexec
    · exact .inl (hkeep.trans hn)
    · exact .inr ⟨_, hraise.trans (raiseFault_advancePc _ s)⟩
  · exact .inl hn

/-- Settles O10: an instruction that raises a fault changes nothing but FAULT and PC, which it takes back. -/
theorem faultingStepIsUndone : Obligations.FaultingStepIsUndone := by
  intro s t hn h hf
  obtain hnone | ⟨c, rfl⟩ := step_fault_cases hn h
  · exact absurd hnone hf
  · rfl

/-- From a state without a fault FAULT becomes the fault of the instruction, or stays NONE where it raises none. -/
theorem exec_faultReg {i : Instr} {s t : State} (hn : s.faultReg = .none) (h : exec i s = .next t) :
    t.faultReg = faultOf i s := by
  obtain ⟨hnone, hkeep⟩ | rfl := exec_fault_cases h
  · rw [hkeep, hn, hnone]
  · rfl

/-- The fetch's advance of PC has no part in any fault. -/
theorem faultOf_advancePc (i : Instr) (s : State) : faultOf i (advancePc s) = faultOf i s := by
  cases i <;> rfl

/-- Settles O11: FAULT after the step is the fault of the instruction executed; an unrecognised word raises none. -/
theorem eachFaultHasExactlyItsCause : Obligations.EachFaultHasExactlyItsCause := by
  refine ⟨⟨rfl, rfl, rfl, rfl⟩, fun s t hn h => ?_⟩
  obtain ⟨hf, -⟩ | ⟨-, i, hi, hexec⟩ | ⟨-, ⟨r, hr⟩, rfl⟩ := step_cases h
  · exact absurd hn hf
  · have hfault : t.faultReg = faultOf i s := (exec_faultReg (s := advancePc s) hn hexec).trans (faultOf_advancePc i s)
    simp only [hfault, hi, Decoded.instr.injEq, faultOf_eq_stackOverflow_iff, faultOf_eq_stackUnderflow_iff,
      faultOf_eq_keyRange_iff, exists_and_right, and_self]
  · simp [hn, hr]

/-! ### Random bytes (R77, R103) -/

/-- CXNN takes one random byte, any other instruction none. -/
theorem exec_draws_cases {i : Instr} {s t : State} (h : exec i s = .next t) :
    ((∃ x nn, i = .rnd x nn) ∧ t.draws = s.draws + 1) ∨ ((¬ ∃ x nn, i = .rnd x nn) ∧ t.draws = s.draws) := by
  by_cases hrnd : ∃ x nn, i = .rnd x nn
  · obtain ⟨x, nn, rfl⟩ := hrnd
    cases h
    exact .inl ⟨⟨x, nn, rfl⟩, rfl⟩
  · exact .inr ⟨hrnd, (exec_frame (fun x nn e => hrnd ⟨x, nn, e⟩) h).2⟩

/-- Settles O55: of the three kinds of step only the execution of CXNN draws. -/
theorem onlyRndDraws : Obligations.OnlyRndDraws := by
  intro s t h
  obtain ⟨hf, rfl⟩ | ⟨hn, i, hi, hexec⟩ | ⟨-, ⟨r, hr⟩, rfl⟩ := step_cases h
  · exact ⟨fun hdraw => absurd hdraw.1 hf, fun _ => rfl⟩
  · simp only [hn, hi, true_and, Decoded.instr.injEq]
    obtain ⟨hrnd, hdraw⟩ | ⟨hrnd, hdraw⟩ := exec_draws_cases hexec
    · exact ⟨fun _ => hdraw, fun hnot => absurd hrnd hnot⟩
    · exact ⟨fun hrnd' => absurd hrnd' hrnd, fun _ => hdraw⟩
  · simp [hr]

/-! ### Steps that change nothing, any number of times (R87, R110) -/

theorem runOps_replicate_step {s : State} (h : step s = .next s) (n : Nat) :
    runOps (List.replicate n .step) s = .next s := by
  induction n with
  | zero => rfl
  | succ n ih => exact (runOps_cons_of_next (op := .step) h _).trans ih

/-- A step on a jump to its own address takes PC back to where it was. -/
theorem step_of_selfLoop {s : State} (hn : s.faultReg = .none) (h : SelfLoop s) : step s = .next s := by
  obtain ⟨hfamily, htarget⟩ := h
  rw [step_of_instr hn (decodeWord_family1 (congrArg Fin.val hfamily)), exec_jp, execJp, htarget]
  rfl

theorem step_of_waitingForKey {s : State} (hn : s.faultReg = .none) (h : WaitingForKey s) : step s = .next s := by
  obtain ⟨⟨x, hw⟩, hkeys⟩ := h
  have hdec : decodeWord (wordRI 0xF x 0x0A) = .instr (.ldVxK x) := decodeWord_encode (i := .ldVxK x) rfl
  exact step_ldVxK_of_none hn (hw ▸ hdec) ((firstKey_eq_none s.keys).2 hkeys)

/-- Where a step of a core without a fault would change nothing, no step does: a faulted core steps in place. -/
theorem step_eq_self_of_unfaulted {s : State} (h : s.faultReg = .none → step s = .next s) : step s = .next s := by
  by_cases hn : s.faultReg = .none
  · exact h hn
  · exact step_of_faulted hn

/-- Settles O15: in each condition one step changes nothing, so any number of them does not. -/
theorem quiescentStatesStay : Obligations.QuiescentStatesStay := by
  refine ⟨fun n s hq => runOps_replicate_step ?_ n, fun n s hw => runOps_replicate_step ?_ n⟩
  · obtain hf | hloop := hq
    · exact step_of_faulted hf
    · exact step_eq_self_of_unfaulted fun hn => step_of_selfLoop hn hloop
  · exact step_eq_self_of_unfaulted fun hn => step_of_waitingForKey hn hw

end Sys2Proof.Machine
end

section
/-! PROOF. Reset and initialisation: the size check, every element's reset value, and the program at 0x200
(spec 70_reset_and_hazards.md R111 to R114). -/

namespace Sys2Proof.Machine

/-! ### Initialisation (R112, R113, R114) -/

/-- A load fails for a program that does not fit, and for no other (R113). -/
theorem init_eq_sizeLimit_iff (prog : List Byte) :
    State.init prog = .error .sizeLimit ↔ Config.maxProg < prog.length := by
  unfold State.init
  split
  · next hlong => exact iff_of_true rfl hlong
  · next hfits => exact iff_of_false nofun hfits

section Loaded

variable {prog : List Byte} {t : State} (h : State.init prog = .ok t)
include h

/-- The program's bytes stand from 0x200 in order: a program that fits is shorter than memory, so no byte is
overwritten by a later one. -/
theorem memRead_init {j : Nat} (hj : j < prog.length) : memRead t.mem (0x200 + j) = prog[j] := by
  obtain ⟨hfit, rfl⟩ := (init_eq_ok_iff prog t).1 h
  exact memRead_loadBytes _ 0x200 prog (hfit.trans (by decide)) j hj

/-- A load writes no byte but the program's own: one that fits ends below 0x1000, so no address wraps. -/
theorem memRead_init_of_outside {a : Nat} (ha : a < 4096) (hout : ∀ j, j < prog.length → a ≠ 0x200 + j) :
    memRead t.mem a = memRead State.reset.mem a := by
  obtain ⟨hfit, rfl⟩ := (init_eq_ok_iff prog t).1 h
  refine memRead_loadBytes_of_outside _ 0x200 prog a fun j hj => ?_
  have hne := hout j hj
  have hlen : prog.length ≤ 3584 := hfit
  omega

theorem frame_init : Frame anyByte State.reset t := by
  obtain ⟨-, rfl⟩ := (init_eq_ok_iff prog t).1 h
  exact frame_setMem fun a ha => absurd ⟨a, rfl⟩ ha

end Loaded

/-- Settles O2: a program that fits is accepted, and the load places its bytes and touches nothing else. -/
theorem initLoadsTheProgramAt0x200 : Obligations.InitLoadsTheProgramAt0x200 := by
  intro prog hfit
  have h := (init_eq_ok_iff prog _).2 ⟨hfit, rfl⟩
  exact ⟨_, h, fun _ => memRead_init h, fun _ => memRead_init_of_outside h, frame_init h⟩

/-! ### Reset (R111) -/

theorem memInitial_of_font {j : Nat} (hj : j < 80) : memInitial (0x050 + j) = fontByte j := by
  rw [memInitial, if_pos ⟨Nat.le_add_right _ _, Nat.add_lt_add_left hj _⟩, Nat.add_sub_cancel_left]

theorem memInitial_of_not_font {a : Nat} (ha : ¬ (0x050 ≤ a ∧ a < 0x0A0)) : memInitial a = 0 := if_neg ha

/-- Settles O1: the register files and the display are constant, and memory reads as its reset contents. -/
theorem resetGivesEveryElementItsValue : Obligations.ResetGivesEveryElementItsValue := by
  refine ⟨fun x => Vector.getElem_replicate x.isLt, rfl, rfl, rfl, fun k => Vector.getElem_replicate k.isLt, rfl, rfl,
    fun k => Vector.getElem_replicate k.isLt, pixel_clearDisplay, fun a ha hfont => ?_, fun j hj => ?_, rfl⟩
  · rw [memRead_reset, Nat.mod_eq_of_lt ha, memInitial_of_not_font hfont]
  · rw [memRead_reset, Nat.mod_eq_of_lt (by omega), memInitial_of_font hj]

/-- Settles O3: the size check decides the failure, and a program of exactly 3584 bytes passes it. -/
theorem oversizeProgramIsRejected : Obligations.OversizeProgramIsRejected := by
  refine fun prog => ⟨init_eq_sizeLimit_iff prog, fun hlen => ?_⟩
  have h := (init_eq_ok_iff prog _).2 ⟨hlen.le, rfl⟩
  exact ⟨_, h, memRead_init h (by omega)⟩

end Sys2Proof.Machine
end
